-- ==== Sys2Proof/Word.lean ====
section
/-! DEFINITION. The values the block works on: bits, data-line values, Cycles and Frames (00_scope.md R10). -/

namespace Sys2Proof

/-- `Bit = {0, 1}` of R10: `true` is 1, `false` is 0. -/
abbrev Bit := Bool

/-- An 8-bit character code on a token port (R44). -/
abbrev Byte := BitVec 8

/-- The 32-bit unsigned `wdata` of a Frame (R10). -/
abbrev Word := BitVec 32

/-- The four non-binary states of the data line (R10, R45). -/
inductive NBKind where
  | highZ
  | forcedHigh
  | forcedLow
  | dontCare
deriving DecidableEq, Repr

/-- A data-line value: a tagged value, exactly one tag active (R10, R45). -/
inductive DataValue where
  | bit (b : Bit)
  | nonBinary (k : NBKind)
deriving DecidableEq, Repr

/-- One sampled point in time: the clock level and the data-line value (R10, R15). -/
structure Cycle where
  clock : Bit
  data : DataValue
deriving DecidableEq, Repr

/-- The 13 fields of a decoded frame (R10); `ack` in capture order. -/
structure Frame where
  start : Bit
  apndp : Bit
  rnw : Bit
  a2 : Bit
  a3 : Bit
  parity1 : Bit
  stop : Bit
  park : Bit
  trn1 : Bit
  ack : DataValue × DataValue × DataValue
  trn2 : DataValue
  wdata : Word
  parity2 : DataValue
deriving DecidableEq, Repr

end Sys2Proof
end

