-- ==== Sys2Proof/Config.lean ====
section
/-! DEFINITION. The free values: what `executing`, `run` and `buf` hold once the block is Faulted.
The spec leaves them unspecified (10_state.md R22, 60_exceptions.md R116, 93_implementation_defined.md U4), so
each is a constant with no body, applied to the counter `State.free`: no proof can see its value. -/

namespace Sys2Proof

/-- `executing` after the `n`-th fault (R22, U4: any value). Log entry 6. -/
opaque Config.freeExecuting : Nat → Bit

/-- `run` after the `n`-th fault (R22, U4: any value); its reader keeps the 6-bit width of D4. Log entry 6. -/
opaque Config.freeRun : Nat → Nat

/-- `buf` after the `n`-th fault (R22, U4: any value); its reader keeps the 46 entries of R20. Log entry 6. -/
opaque Config.freeBuf : Nat → List DataValue

end Sys2Proof
end

