-- ==== Sys2Proof/Machine/Operands.lean ====
section
/-! DEFINITION. The bit-field extractor: constants, the two layouts, each operand form of a frame, the block
reversal, and `extract` (43_field_extractor.md, 44_bit_reversal.md). -/

namespace Sys2Proof.Machine

/-- `FRAME_LEN` (R8): buffered Cycles per Frame. -/
def frameLen : Nat := 46

/-- `RESET_RUN` (R8): consecutive `Bit(1)` values that make a ResetEvent. -/
def resetRun : Nat := 50

/-- `WDATA_W` (R8): width of `wdata` in bits and in Cycles. -/
def wdataWidth : Nat := 32

/-- `N_PLAIN` (R8): the plain bit fields stand at indices 0 to 8. -/
def plainBits : Nat := 9

/-- Where a format puts the fields that depend on `rnw` (R51, R52). -/
structure Layout where
  /-- index of `trn2` -/
  trn2 : Nat
  /-- index of `wdata` bit 0 -/
  base : Nat
  /-- index of `parity2` -/
  parity2 : Nat
deriving DecidableEq, Repr

/-- The constant table keyed by `rnw` (R43): the WRITE layout (R51) for 0, the READ layout (R52) for 1. -/
def layout : Bit → Layout
  | false => { trn2 := 12, base := 13, parity2 := 45 }
  | true => { trn2 := 45, base := 12, parity2 := 44 }

/-- `isBit` of R12. -/
def isBit : DataValue → Bool
  | .bit _ => true
  | .nonBinary _ => false

/-- `ToBit(buf, i)` (R91): the bit at index `i`, or the index at which conversion fails. -/
def toBit (buf : List DataValue) (i : Nat) : Except Nat Bit :=
  match buf[i]? with
  | some (.bit b) => .ok b
  | _ => .error i

/-- `n` entries from index `i` on, each through `ToBit`, in ascending index order (R90, R120). -/
def toBits (buf : List DataValue) (i : Nat) : Nat → Except Nat (List Bit)
  | 0 => .ok []
  | n + 1 =>
    match toBit buf i with
    | .error j => .error j
    | .ok b =>
      match toBits buf (i + 1) n with
      | .error j => .error j
      | .ok bs => .ok (b :: bs)

/-- A verbatim operand (R92): the entry unchanged. `extract` asks for it only where the entry exists. -/
def verbatim (buf : List DataValue) (i : Nat) : DataValue :=
  buf.getD i (.bit false)

/-- An ordinary binary numeral read leftmost digit first (R111). -/
def ofDigits (digits : List Bit) : Nat :=
  digits.foldl (fun n b => 2 * n + b.toNat) 0

/-- `Rev32(cap)` (R111): the capture-order digits reversed as one block and read as a numeral. -/
def rev32 (cap : List Bit) : Word :=
  BitVec.ofNat 32 (ofDigits cap.reverse)

/-- The Frame of a buffer whose plain bits and payload are already converted (R90, R93 to R108). -/
def assemble (buf : List DataValue) (plain cap : List Bit) (l : Layout) : Frame :=
  { start := plain.getD 0 false
    apndp := plain.getD 1 false
    rnw := plain.getD 2 false
    a2 := plain.getD 3 false
    a3 := plain.getD 4 false
    parity1 := plain.getD 5 false
    stop := plain.getD 6 false
    park := plain.getD 7 false
    trn1 := plain.getD 8 false
    ack := (verbatim buf 9, verbatim buf 10, verbatim buf 11)
    trn2 := verbatim buf l.trn2
    wdata := rev32 cap
    parity2 := verbatim buf l.parity2 }

/-- `Extract(buf)` (R90), for a buffer of 46 entries: the Frame, or the index `ToBit` fails at. The nine plain bits come
first, then `rnw` selects the layout, then the 32 payload bits. -/
def extract (buf : List DataValue) : Except Nat Frame :=
  match toBits buf 0 plainBits with
  | .error i => .error i
  | .ok plain =>
    let l := layout (plain.getD 2 false)
    match toBits buf l.base wdataWidth with
    | .error i => .error i
    | .ok cap => .ok (assemble buf plain cap l)

end Sys2Proof.Machine
end

