-- ==== Sys2Proof/Syntax.lean ====
section
/-! DEFINITION. The instruction type: one constructor per row of opcode_table.json, in its four groups (R54). -/

namespace Sys2Proof

/-- What the block decodes (30_encoding.md R54): the seven capture tokens of the Sample Normalizer, the six
Cycle classes of the per-cycle Step, the two frame formats of the field extractor. -/
inductive Instr where
  /-- `TOKEN_DATA '0'` (R62) -/
  | tokenData0
  /-- `TOKEN_DATA '1'` (R63) -/
  | tokenData1
  /-- `TOKEN_DATA 'H'` (R64) -/
  | tokenDataH
  /-- `TOKEN_DATA 'L'` (R65) -/
  | tokenDataL
  /-- `TOKEN_DATA 'X'` (R66) -/
  | tokenDataX
  /-- `TOKEN_CLOCK '0'` (R67) -/
  | tokenClock0
  /-- `TOKEN_CLOCK '1'` (R68) -/
  | tokenClock1
  /-- clock 0, data `Bit(1)` (R78) -/
  | cycL1
  /-- clock 1, data `Bit(1)` (R79) -/
  | cycH1
  /-- clock 0, data `Bit(0)` (R80) -/
  | cycL0
  /-- clock 1, data `Bit(0)` (R81) -/
  | cycH0
  /-- clock 0, data `NonBinary(k)` (R82) -/
  | cycLN (k : NBKind)
  /-- clock 1, data `NonBinary(k)` (R83) -/
  | cycHN (k : NBKind)
  /-- a completed 46-entry buffer with `buf[2] = Bit(0)` (R109) -/
  | frameWrite (f : Frame)
  /-- a completed 46-entry buffer with `buf[2] = Bit(1)` (R110) -/
  | frameRead (f : Frame)
deriving DecidableEq, Repr

end Sys2Proof
end

