-- ==== Sys2Proof/WellFormed.lean ====
section
/-! DEFINITION. Which instruction terms the formats of the spec admit. -/

namespace Sys2Proof

/-- The one check the tagged types leave: a frame's `rnw` is fixed by its format, 0 in FRAME_WRITE (R51) and
1 in FRAME_READ (R52). Every token, Cycle class and every other field value is legal (R47, R56). -/
def Instr.wellFormed : Instr → Bool
  | .tokenData0 => true
  | .tokenData1 => true
  | .tokenDataH => true
  | .tokenDataL => true
  | .tokenDataX => true
  | .tokenClock0 => true
  | .tokenClock1 => true
  | .cycL1 => true
  | .cycH1 => true
  | .cycL0 => true
  | .cycH0 => true
  | .cycLN _ => true
  | .cycHN _ => true
  | .frameWrite f => !f.rnw
  | .frameRead f => f.rnw

end Sys2Proof
end

