-- ==== Sys2Proof/Decode.lean ====
section
/-! DEFINITION. The decoder of each stage (R54), total and rejecting by name, and after it the encoder. -/

namespace Sys2Proof

/-- An instruction word, by the place the block reads it from (R54): a character on `tok_data` or `tok_clock` (R44, R46), the
4-bit port word `in_clock ‖ in_data[2:0]` (R47), or the entries of the frame buffer (R49). -/
inductive Encoded where
  | dataToken (ch : Byte)
  | clockToken (ch : Byte)
  | cycle (w : BitVec 4)
  | frame (buf : List DataValue)
deriving DecidableEq, Repr

/-- Why a word is no instruction. -/
inductive Reject where
  /-- a `tok_data` character outside `0 1 H L X` (R69) -/
  | badDataToken
  /-- a `tok_clock` character outside `0 1` (R69) -/
  | badClockToken
  /-- `in_data` is 010 or 011 (R48) -/
  | reservedCode
  /-- `ToBit` fails at this index of a completed buffer (R55) -/
  | unconvertible (index : Nat)
  /-- the buffer does not hold 46 entries: nothing is decoded (R36) -/
  | partialFrame
deriving DecidableEq, Repr

/-- The 3-bit port code of a DataValue (R45); 010 and 011 are reserved (R48). -/
def decodeDataValue (c : BitVec 3) : Option DataValue :=
  match c.toNat with
  | 0 => some (.bit false)
  | 1 => some (.bit true)
  | 4 => some (.nonBinary .highZ)
  | 5 => some (.nonBinary .forcedHigh)
  | 6 => some (.nonBinary .forcedLow)
  | 7 => some (.nonBinary .dontCare)
  | _ => none

/-- The class of a Cycle (R47). -/
def classOf (c : Cycle) : Instr :=
  match c.clock, c.data with
  | false, .bit true => .cycL1
  | true, .bit true => .cycH1
  | false, .bit false => .cycL0
  | true, .bit false => .cycH0
  | false, .nonBinary k => .cycLN k
  | true, .nonBinary k => .cycHN k

/-- Group TOKEN_DATA (R44, R62 to R66, R69). -/
def decodeDataToken (ch : Byte) : Except Reject Instr :=
  match ch.toNat with
  | 0x30 => .ok .tokenData0
  | 0x31 => .ok .tokenData1
  | 0x48 => .ok .tokenDataH
  | 0x4C => .ok .tokenDataL
  | 0x58 => .ok .tokenDataX
  | _ => .error .badDataToken

/-- Group TOKEN_CLOCK (R44, R67, R68, R69). -/
def decodeClockToken (ch : Byte) : Except Reject Instr :=
  match ch.toNat with
  | 0x30 => .ok .tokenClock0
  | 0x31 => .ok .tokenClock1
  | _ => .error .badClockToken

/-- Group CYCLE (R47): bit 3 is `in_clock`, bits 2:0 are `in_data`. -/
def decodeCycle (w : BitVec 4) : Except Reject Instr :=
  match decodeDataValue (w.extractLsb' 0 3) with
  | some d => .ok (classOf { clock := w.getLsbD 3, data := d })
  | none => .error .reservedCode

/-- Group FRAME (R49, R54, R55): `buf[2]` selects the format, a non-binary value where a bit is needed rejects. -/
def decodeFrame (buf : List DataValue) : Except Reject Instr :=
  if buf.length = Machine.frameLen then
    match Machine.extract buf with
    | .error i => .error (.unconvertible i)
    | .ok f => .ok (if f.rnw then .frameRead f else .frameWrite f)
  else .error .partialFrame

/-- The decoder: each stage decodes its own group (R54). -/
def decode : Encoded → Except Reject Instr
  | .dataToken ch => decodeDataToken ch
  | .clockToken ch => decodeClockToken ch
  | .cycle w => decodeCycle w
  | .frame buf => decodeFrame buf

/-- The opcode table's numbering of a word, read as the place it is presented at. A row of at most one byte is a Cycle port
word when it is below 16 (width 4) and a character on `tok_data` otherwise; a wider row is a frame of bits, position `i` of
the table being bit `i`. Log entry 5. -/
def tableWord (nbits w : Nat) : Encoded :=
  if nbits ≤ 8 then
    if w < 16 then .cycle (BitVec.ofNat 4 w) else .dataToken (BitVec.ofNat 8 w)
  else .frame ((List.range 46).map fun i => .bit (w.testBit i))

/-- The instruction the decoder reads from a word of the opcode table. -/
def decodeTableWord (nbits w : Nat) : Option Instr :=
  match decode (tableWord nbits w) with
  | .ok i => some i
  | .error _ => none

/-! ## The encoder -/

/-- The 3-bit port code of a DataValue (R45). -/
def encodeDataValue : DataValue → BitVec 3
  | .bit false => 0b000
  | .bit true => 0b001
  | .nonBinary .highZ => 0b100
  | .nonBinary .forcedHigh => 0b101
  | .nonBinary .forcedLow => 0b110
  | .nonBinary .dontCare => 0b111

/-- The port word of a Cycle, `in_clock` leftmost (R47). -/
def encodeCycle (c : Cycle) : BitVec 4 :=
  (BitVec.ofBool c.clock) ++ (encodeDataValue c.data)

/-- The 32 payload entries of a value in the documented bit order: position `i` carries `Bit(v[i])` (R114). -/
def encodePayload (v : Word) : List DataValue :=
  (List.range 32).map fun i => .bit (v.getLsbD i)

/-- The twelve entries both formats share (R50). -/
def encodeHead (f : Frame) : List DataValue :=
  [.bit f.start, .bit f.apndp, .bit f.rnw, .bit f.a2, .bit f.a3, .bit f.parity1, .bit f.stop, .bit f.park, .bit f.trn1,
    f.ack.1, f.ack.2.1, f.ack.2.2]

/-- The WRITE format (R51). -/
def encodeWriteFrame (f : Frame) : List DataValue :=
  encodeHead f ++ f.trn2 :: (encodePayload f.wdata ++ [f.parity2])

/-- The READ format (R52). -/
def encodeReadFrame (f : Frame) : List DataValue :=
  encodeHead f ++ (encodePayload f.wdata ++ [f.parity2, f.trn2])

/-- The format `rnw` names (R49). -/
def encodeFrame (f : Frame) : List DataValue :=
  if f.rnw then encodeReadFrame f else encodeWriteFrame f

/-- The encoder: the word of each instruction (R44, R47, R51, R52). -/
def encode : Instr → Encoded
  | .tokenData0 => .dataToken 0x30
  | .tokenData1 => .dataToken 0x31
  | .tokenDataH => .dataToken 0x48
  | .tokenDataL => .dataToken 0x4C
  | .tokenDataX => .dataToken 0x58
  | .tokenClock0 => .clockToken 0x30
  | .tokenClock1 => .clockToken 0x31
  | .cycL1 => .cycle 0b0001
  | .cycH1 => .cycle 0b1001
  | .cycL0 => .cycle 0b0000
  | .cycH0 => .cycle 0b1000
  | .cycLN k => .cycle (encodeCycle { clock := false, data := .nonBinary k })
  | .cycHN k => .cycle (encodeCycle { clock := true, data := .nonBinary k })
  | .frameWrite f => .frame (encodeWriteFrame f)
  | .frameRead f => .frame (encodeReadFrame f)

end Sys2Proof
end

