-- ==== Sys2Proof/Machine/State.lean ====
section
/-! DEFINITION. What the block holds (10_state.md R17), what its ports carry (R46, R57), and the state after stream initialisation. -/

namespace Sys2Proof.Machine

/-- Which token of a record a `BadToken` names (R115). -/
inductive TokenLine where
  | data
  | clock
deriving DecidableEq, Repr

/-- The causes a Faulted block records (R10, R115). They are states of the machine, not ends of a run: the block goes on, taking
no effective Step (R72). -/
inductive FaultCause where
  | badToken (which : TokenLine)
  | unconvertible (index : Nat)
deriving DecidableEq, Repr

/-- A decoded event (R10, R57): the line reset carries nothing (R89), a frame its 13 fields. -/
inductive Event where
  | resetEvent
  | frame (f : Frame)
deriving DecidableEq, Repr

/-- The Output of one Step (R7, R10). -/
inductive Output where
  | none
  | event (e : Event)
  | fault (c : FaultCause)
deriving DecidableEq, Repr

/-- What the host drives on the input ports in one unit of time, `rst` apart (R46): nothing, a Cycle on `in_clock` and `in_data`
(R47), or a record on `tok_data` and `tok_clock` (R44, R61). `token` is a record given one token at a time, the data-line token before the
clock-line token, so that each token is an instruction of its own (log entry 2). -/
inductive Presented where
  | nothing
  | cycle (w : BitVec 4)
  | record (dtok ctok : Byte)
  | token (ch : Byte)
deriving DecidableEq, Repr

/-- One unit of the input ports (R46); while `rst` is 1 what is presented is ignored (R129, U8). -/
structure PortSample where
  rst : Bit
  present : Presented
deriving DecidableEq, Repr

/-- The block's one storage, the frame buffer: DataValues in capture order, the index counted from 0 (R20, R34). A list by
position is its own canonical form: equal buffers are equal lists. -/
abbrev Memory := List DataValue

/-- The buffer has 46 entries (R20, R34). -/
def Memory.wf (m : Memory) : Bool :=
  decide (m.length ≤ 46)

/-- The machine. The first four fields are the spec's `DecoderState` (R10, R17); `output` is what its output ports carry (R57); `tokData` and
`tokClock` are the two halves of the record on the Normalizer (R61); `input` is what the host will still present (R132); `free`
is the model's own counter of free values (log entry 6). -/
structure State where
  /-- Idle (0) or Armed (1) (R18) -/
  executing : Bit
  /-- consecutive `Bit(1)` values, 0 to 49 between Steps (R19, R30) -/
  run : Nat
  /-- the in-progress frame, 0 to 45 entries between Steps (R20, R29) -/
  buf : Memory
  /-- the sticky fault element (R22) -/
  fault : Option FaultCause
  /-- the Output of the Step just taken (R57, R132) -/
  output : Output
  /-- `data` of the record being normalised, once its data-line token is in (R61) -/
  tokData : Option DataValue
  /-- `clock` of the record being normalised, once its clock-line token is in (R61) -/
  tokClock : Option Bit
  /-- the port samples to come, the next one first (R132, R133) -/
  input : List PortSample
  /-- how many free values were handed out -/
  free : Nat
deriving DecidableEq, Repr

/-- Stream initialisation's values (R33, R129): Idle, no ones counted, an empty buffer, no fault, no Event on the ports, no record
begun; nothing is presented until the host presents it (log entry 4), no free value handed out (log entry 6). -/
def State.reset : State :=
  { executing := false
    run := 0
    buf := []
    fault := none
    output := .none
    tokData := none
    tokClock := none
    input := []
    free := 0 }

/-- What stops the model. Closed. -/
inductive Fault where
  /-- Raised by the append of sub-step 3 (R35) when the buffer already holds 46 entries: index 46 is outside the address space 0 to 45
  (R34). Safe: it stops where the spec has no such write, and no state between Steps reaches it (R29). -/
  | bufferOverrun
deriving DecidableEq, Repr

/-- What the model does not run. Closed. -/
inductive Refusal where
  /-- Raised by an arm of `exec` whose instruction has no meaning yet: none. Safe. -/
  | notModelled (mnemonic : String)
  /-- Raised by the step when `in_data` is 010 or 011: the spec leaves the behaviour not specified and asks for a refusal
  (R48, U5). Safe. -/
  | reservedPortCode
deriving DecidableEq, Repr

end Sys2Proof.Machine
end

