-- ==== Sys2Proof/Machine/Ops.lean ====
section
/-! DEFINITION. The shared operations: buffer access, initialisation, raising a fault, the four sub-steps of a Step and the Step
(41_frame_decoder_fsm.md R71), the Sample Normalizer's record, and what a rejected word does. -/

namespace Sys2Proof.Machine

/-! ## The frame buffer (20_memory.md) -/

/-- One entry (R36); an index at or past the length holds nothing (R12). -/
def Memory.read (m : Memory) (i : Nat) : Option DataValue :=
  m[i]?

/-- The append of R35, at index `len(buf)`; `none` where that index is outside the address space 0 to 45 (R34). -/
def Memory.append (m : Memory) (d : DataValue) : Option Memory :=
  if m.length < 46 then some (m ++ [d]) else none

/-! ## Faults and initialisation (60_exceptions.md, 70_reset_and_hazards.md) -/

/-- No Event and no fault on the Output; everything else as it is. -/
def State.quiet (s : State) : State :=
  { s with output := .none }

/-- `raise c` (R116, R117, R122): the cause is saved, the Output is the fault, and `executing`, `run` and `buf` are unspecified from here
on (R22, U4): free values, within the 6 bits of `run` and the 46 entries of `buf`. -/
def raise (c : FaultCause) (s : State) : State :=
  { s with
    fault := some c
    output := .fault c
    executing := Config.freeExecuting s.free
    run := Config.freeRun s.free % 64
    buf := (Config.freeBuf s.free).take 46
    free := s.free + 1 }

/-- Stream initialisation (R129): the only way out of Faulted (R123). What the host will present is not the block's. -/
def initialise (s : State) : State :=
  { State.reset with input := s.input, free := s.free }

/-- `BadToken` (R117): no Cycle comes of the record. A Faulted block ignores it (R123). -/
def badToken (which : TokenLine) (s : State) : State :=
  match s.fault with
  | some _ => s.quiet
  | none => raise (.badToken which) { s with tokData := none, tokClock := none }

/-! ## The Step (R71) -/

/-- Sub-step 1, start-of-transaction detection (R73). -/
def arm (c : Cycle) (s : State) : State :=
  if s.executing = false ∧ c.clock = false ∧ c.data = .bit true then { s with executing := true } else s

/-- Sub-step 2, first half: the counter update (R84). -/
def countOnes (c : Cycle) (s : State) : State :=
  if c.data = .bit true then { s with run := s.run + 1 } else { s with run := 0 }

/-- Sub-step 2, second half: the threshold (R85). `executing` is not written (R86). -/
def lineReset (s : State) : State :=
  if s.run = resetRun then { s with output := .event .resetEvent, run := 0, buf := [] } else s

/-- Sub-step 3, accumulation (R75); `none` where the append has no index to go to. -/
def accumulate (c : Cycle) (s : State) : Option State :=
  if c.clock = false ∧ s.executing = true then
    match s.buf.append c.data with
    | some b => some { s with buf := b }
    | none => none
  else some s

/-- The effect of a decoded frame (R76): the Frame is emitted, `executing` and the buffer are cleared, `run` is not written (R27). -/
def emitFrame (f : Frame) (s : State) : State :=
  { s with output := .event (.frame f), executing := false, buf := [] }

/-- Sub-step 4, frame completion (R76, R116). -/
def complete (s : State) : State :=
  if s.buf.length = frameLen then
    match extract s.buf with
    | .ok f => emitFrame f s
    | .error i => raise (.unconvertible i) s
  else s

/-- The Step of the frame decoder on one Cycle (R71); a Faulted block does nothing (R72). -/
def decoderStep (c : Cycle) (s : State) : Host.Outcome State Fault Refusal :=
  match s.fault with
  | some _ => .next s.quiet
  | none =>
    match accumulate c (lineReset (countOnes c (arm c s.quiet))) with
    | some t => .next (complete t)
    | none => .fault .bufferOverrun

/-- Sub-step 4 on a frame already decoded (R109, R110); a Faulted block does nothing (R72). -/
def decodedFrame (f : Frame) (s : State) : Host.Outcome State Fault Refusal :=
  match s.fault with
  | some _ => .next s.quiet
  | none => .next (emitFrame f s)

/-! ## The Sample Normalizer (40_normalizer.md) -/

/-- Once a record has both its tokens, its Cycle is presented as the next Cycle, and nothing is kept (R61, R26). -/
def presentRecord (s : State) : Host.Outcome State Fault Refusal :=
  match s.tokData, s.tokClock with
  | some d, some c => decoderStep { clock := c, data := d } { s with tokData := none, tokClock := none }
  | some _, none => .next s
  | none, _ => .next s

/-- A data-line token: `data <- d` (R62 to R66); a Faulted block ignores it (R117). -/
def dataToken (d : DataValue) (s : State) : Host.Outcome State Fault Refusal :=
  match s.fault with
  | some _ => .next s.quiet
  | none => presentRecord { s with output := .none, tokData := some d }

/-- A clock-line token: `clock <- c` (R67, R68); a Faulted block ignores it (R117). -/
def clockToken (c : Bit) (s : State) : Host.Outcome State Fault Refusal :=
  match s.fault with
  | some _ => .next s.quiet
  | none => presentRecord { s with output := .none, tokClock := some c }

/-! ## Words that are no instruction -/

/-- What a rejected word does: a bad token raises `BadToken` (R69), an unconvertible frame raises `Unconvertible` (R116), a reserved
port code is refused (R48), and a partly filled buffer is not looked at (R36). -/
def rejectWord (r : Reject) (s : State) : Host.Outcome State Fault Refusal :=
  match r with
  | .badDataToken => .next (badToken .data s)
  | .badClockToken => .next (badToken .clock s)
  | .reservedCode => .refused .reservedPortCode
  | .unconvertible i => .next (raise (.unconvertible i) s)
  | .partialFrame => .next s.quiet

end Sys2Proof.Machine
end

