-- ==== Sys2Proof/Machine/Fetch.lean ====
section
/-! DEFINITION. Where the next word comes from, and how a word is placed there. The block has no program counter (R23): it takes the
host's port samples in order (R132), and its own completed buffer as a frame (R76). -/

namespace Sys2Proof.Machine

/-- What one unit of time brings. -/
inductive Fetched where
  /-- a word to decode, and the state with it taken from where it stood -/
  | word (e : Encoded) (s : State)
  /-- the two tokens of a record, and the state with it taken and no other record begun -/
  | record (dtok ctok : Byte) (s : State)
  /-- `rst = 1` (R129) -/
  | initialise (s : State)
  /-- nothing is presented (R46, R133) -/
  | nothing (s : State)
deriving DecidableEq, Repr

/-- A completed buffer stands in a block that is not Faulted: sub-step 4 is due (R76). No state between Steps is one (R29). -/
def State.frameDue (s : State) : Bool :=
  s.fault.isNone && s.buf.length == frameLen

/-- The port sample the host drives now, and the state without it. -/
def fetchSample (p : PortSample) (s : State) : Fetched :=
  match p.rst, p.present with
  | true, _ => .initialise s
  | false, .nothing => .nothing s
  | false, .cycle w => .word (.cycle w) s
  | false, .record dtok ctok => .record dtok ctok { s with tokData := none, tokClock := none }
  | false, .token ch => .word (if s.tokData.isSome then .clockToken ch else .dataToken ch) s

/-- The next word: the completed buffer if one stands there (the Step it belongs to is not over, R40), else the next port sample.
An empty `input` is the end of the stream (R133). -/
def fetch (s : State) : Fetched :=
  if s.frameDue then .word (.frame s.buf) s
  else
    match s.input with
    | [] => .nothing s
    | p :: rest => fetchSample p { s with input := rest }

/-- A buffer with no completed frame in it, so that the next port sample is what comes next. -/
def State.withoutDueFrame (s : State) : State :=
  if s.frameDue then { s with buf := [] } else s

/-- `s` with a word placed where `fetch` finds it next: a Cycle or a token as the next port sample, a frame in the buffer of a block that is
not Faulted. -/
def placeWord (e : Encoded) (s : State) : State :=
  match e with
  | .cycle w =>
    let t := s.withoutDueFrame
    { t with input := { rst := false, present := .cycle w } :: t.input }
  | .dataToken ch =>
    let t := s.withoutDueFrame
    { t with tokData := none, input := { rst := false, present := .token ch } :: t.input }
  | .clockToken ch =>
    let t := s.withoutDueFrame
    { t with
      tokData := some (t.tokData.getD (.bit false))
      input := { rst := false, present := .token ch } :: t.input }
  | .frame buf => { s with buf := buf, fault := none }

end Sys2Proof.Machine
end

