-- ==== Sys2Proof/Machine/Cycles.lean ====
section
/-! DEFINITION. The meanings of the six Cycle classes: one Step each (41_frame_decoder_fsm.md). -/

namespace Sys2Proof.Machine

/-- `CYC_L1` (R78). -/
def execCycL1 (s : State) : Host.Outcome State Fault Refusal :=
  decoderStep { clock := false, data := .bit true } s

/-- `CYC_H1` (R79). -/
def execCycH1 (s : State) : Host.Outcome State Fault Refusal :=
  decoderStep { clock := true, data := .bit true } s

/-- `CYC_L0` (R80). -/
def execCycL0 (s : State) : Host.Outcome State Fault Refusal :=
  decoderStep { clock := false, data := .bit false } s

/-- `CYC_H0` (R81). -/
def execCycH0 (s : State) : Host.Outcome State Fault Refusal :=
  decoderStep { clock := true, data := .bit false } s

/-- `CYC_LN` (R82). -/
def execCycLN (k : NBKind) (s : State) : Host.Outcome State Fault Refusal :=
  decoderStep { clock := false, data := .nonBinary k } s

/-- `CYC_HN` (R83). -/
def execCycHN (k : NBKind) (s : State) : Host.Outcome State Fault Refusal :=
  decoderStep { clock := true, data := .nonBinary k } s

end Sys2Proof.Machine
end

