-- ==== Sys2Proof/Machine/Frames.lean ====
section
/-! DEFINITION. The meanings of the two frame formats: the completion of a frame already decoded (43_field_extractor.md). -/

namespace Sys2Proof.Machine

/-- `FRAME_WRITE` (R109). -/
def execFrameWrite (f : Frame) (s : State) : Host.Outcome State Fault Refusal :=
  decodedFrame f s

/-- `FRAME_READ` (R110). -/
def execFrameRead (f : Frame) (s : State) : Host.Outcome State Fault Refusal :=
  decodedFrame f s

end Sys2Proof.Machine
end

