-- ==== Sys2Proof/Machine/Tokens.lean ====
section
/-! DEFINITION. The meanings of the seven capture tokens (40_normalizer.md). -/

namespace Sys2Proof.Machine

/-- `TOKEN_DATA '0'` (R62). -/
def execTokenData0 (s : State) : Host.Outcome State Fault Refusal :=
  dataToken (.bit false) s

/-- `TOKEN_DATA '1'` (R63). -/
def execTokenData1 (s : State) : Host.Outcome State Fault Refusal :=
  dataToken (.bit true) s

/-- `TOKEN_DATA 'H'` (R64). -/
def execTokenDataH (s : State) : Host.Outcome State Fault Refusal :=
  dataToken (.nonBinary .forcedHigh) s

/-- `TOKEN_DATA 'L'` (R65). -/
def execTokenDataL (s : State) : Host.Outcome State Fault Refusal :=
  dataToken (.nonBinary .forcedLow) s

/-- `TOKEN_DATA 'X'` (R66). -/
def execTokenDataX (s : State) : Host.Outcome State Fault Refusal :=
  dataToken (.nonBinary .dontCare) s

/-- `TOKEN_CLOCK '0'` (R67). -/
def execTokenClock0 (s : State) : Host.Outcome State Fault Refusal :=
  clockToken false s

/-- `TOKEN_CLOCK '1'` (R68). -/
def execTokenClock1 (s : State) : Host.Outcome State Fault Refusal :=
  clockToken true s

end Sys2Proof.Machine
end

