-- ==== Sys2Proof/Machine/Dispatch.lean ====
section
/-! DEFINITION. One arm per instruction (R54). -/

namespace Sys2Proof.Machine

def exec (i : Instr) (s : State) : Host.Outcome State Fault Refusal :=
  match i with
  | .tokenData0 => Sys2Proof.Machine.execTokenData0 s
  | .tokenData1 => Sys2Proof.Machine.execTokenData1 s
  | .tokenDataH => Sys2Proof.Machine.execTokenDataH s
  | .tokenDataL => Sys2Proof.Machine.execTokenDataL s
  | .tokenDataX => Sys2Proof.Machine.execTokenDataX s
  | .tokenClock0 => Sys2Proof.Machine.execTokenClock0 s
  | .tokenClock1 => Sys2Proof.Machine.execTokenClock1 s
  | .cycL1 => Sys2Proof.Machine.execCycL1 s
  | .cycH1 => Sys2Proof.Machine.execCycH1 s
  | .cycL0 => Sys2Proof.Machine.execCycL0 s
  | .cycH0 => Sys2Proof.Machine.execCycH0 s
  | .cycLN k => Sys2Proof.Machine.execCycLN k s
  | .cycHN k => Sys2Proof.Machine.execCycHN k s
  | .frameWrite f => Sys2Proof.Machine.execFrameWrite f s
  | .frameRead f => Sys2Proof.Machine.execFrameRead f s

end Sys2Proof.Machine
end

