-- ==== Sys2Proof/Machine/Run.lean ====
section
/-! DEFINITION. Running what was fetched: one word, or the two tokens of a record. -/

namespace Sys2Proof.Machine

/-- Decode a word in its own group (R54) and run it, or do what a rejected word does. -/
def runWord (e : Encoded) (s : State) : Host.Outcome State Fault Refusal :=
  match decode e with
  | .ok i => exec i s
  | .error r => rejectWord r s

/-- A record presented whole (R61, R132): its data-line token, then, unless that one is bad (R69), its clock-line token, in one unit of
time. `s` has no record begun. -/
def runRecord (dtok ctok : Byte) (s : State) : Host.Outcome State Fault Refusal :=
  match decode (.dataToken dtok) with
  | .error r => rejectWord r s
  | .ok i =>
    match exec i s with
    | .next t => runWord (.clockToken ctok) t
    | .fault f => .fault f
    | .refused r => .refused r

end Sys2Proof.Machine
end

