-- ==== Sys2Proof/Machine/Step.lean ====
section
/-! DEFINITION. One unit of the block's time (R132, R140). -/

namespace Sys2Proof.Machine

/-- Take what comes next, decode it in its own group, and run it (R54, R71). -/
def step (s : State) : Host.Outcome State Fault Refusal :=
  match fetch s with
  | .word e t => runWord e t
  | .record dtok ctok t => runRecord dtok ctok t
  | .initialise t => .next (initialise t)
  | .nothing t => .next t.quiet

/-- `s` with a word of the opcode table as what comes next. Log entry 5. -/
def State.withFetchWord (s : State) (nbits w : Nat) : State :=
  placeWord (tableWord nbits w) s

end Sys2Proof.Machine
end

