-- ==== Sys2Proof/Machine/Flags.lean ====
section
/-! DEFINITION. The flags and output ports computed from the state (R24, R25, R57, R77). -/

namespace Sys2Proof.Machine

/-- The states of R77. -/
inductive Phase where
  | idle
  | armed
  | faulted
deriving DecidableEq, Repr

/-- Where the machine is (R23, R77). -/
def State.phase (s : State) : Phase :=
  match s.fault with
  | some _ => .faulted
  | none => if s.executing then .armed else .idle

/-- Port `ev_valid`: 1 exactly when the Output is an Event (R57). -/
def State.evValid (s : State) : Bit :=
  match s.output with
  | .event _ => true
  | .none => false
  | .fault _ => false

/-- Port `ev_kind`, 0 a ResetEvent and 1 a Frame; no value where the spec gives it none (R57, U6). -/
def State.evKind (s : State) : Option Bit :=
  match s.output with
  | .event .resetEvent => some false
  | .event (.frame _) => some true
  | .none => none
  | .fault _ => none

/-- The Frame on the `f_*` ports; no value where the spec gives them none (R57, U6). -/
def State.framePorts (s : State) : Option Frame :=
  match s.output with
  | .event (.frame f) => some f
  | .event .resetEvent => none
  | .none => none
  | .fault _ => none

/-- Port `f_ack`, 9 bits, `ack[0]` in bits 2:0 and `ack[2]` in bits 8:6 (R57). -/
def State.ackPort (s : State) : Option (BitVec 9) :=
  s.framePorts.map fun f => encodeDataValue f.ack.2.2 ++ encodeDataValue f.ack.2.1 ++ encodeDataValue f.ack.1

/-- Port `f_trn2` (R57), in the code of R45. -/
def State.trn2Port (s : State) : Option (BitVec 3) :=
  s.framePorts.map fun f => encodeDataValue f.trn2

/-- Port `f_wdata` (R57). -/
def State.wdataPort (s : State) : Option Word :=
  s.framePorts.map fun f => f.wdata

/-- Port `f_parity2` (R57), in the code of R45. -/
def State.parity2Port (s : State) : Option (BitVec 3) :=
  s.framePorts.map fun f => encodeDataValue f.parity2

/-- Port `fault`: 1 exactly when the `fault` element is not `none` (R57). -/
def State.faultPort (s : State) : Bit :=
  s.fault.isSome

/-- The code of a cause (R57, R115): the kind in bits 7:6, the index or the token in bits 5:0. -/
def FaultCause.code : FaultCause → BitVec 8
  | .badToken .data => 0b01000000
  | .badToken .clock => 0b01000001
  | .unconvertible i => (0b10 : BitVec 2) ++ BitVec.ofNat 6 i

/-- Port `fault_cause` (R57): all zero when there is no fault. -/
def State.faultCausePort (s : State) : BitVec 8 :=
  match s.fault with
  | none => 0
  | some c => c.code

end Sys2Proof.Machine
end

