-- ==== Sys2Proof/Machine/Text.lean ====
section
/-! DEFINITION. The textual forms the spec transcribes (30_encoding.md section 8): the capture line's token group and the text of
`wdata`. They belong to the collaborators outside the block (R5); the machine does not use them. -/

namespace Sys2Proof.Machine

/-- The token set of the capture line (R58). -/
def inTokenSet (ch : Byte) : Bool :=
  ch == 0x30 || ch == 0x31 || ch == 0x48 || ch == 0x4C || ch == 0x58

/-- The record `(data, clock)` of the group `c0 c1 c2 c3` (R58): accepted when all four characters are in the token set, the clock
character first in the group, the data character second, the other two unused. -/
def recordOfGroup (c0 c1 c2 c3 : Byte) : Option (Byte × Byte) :=
  if inTokenSet c0 && inTokenSet c1 && inTokenSet c2 && inTokenSet c3 then some (c1, c0) else none

/-- The capture token of a DataValue (R59); no token stands for HighZ (R70). -/
def tokenChar : DataValue → Option Byte
  | .bit false => some 0x30
  | .bit true => some 0x31
  | .nonBinary .forcedHigh => some 0x48
  | .nonBinary .forcedLow => some 0x4C
  | .nonBinary .dontCare => some 0x58
  | .nonBinary .highZ => none

/-- The 32 digits of `wdata`, bit 31 leftmost, leading zeros kept (R60). -/
def wdataDigits (v : Word) : List Bit :=
  ((List.range 32).map v.getLsbD).reverse

end Sys2Proof.Machine
end

