-- ==== Sys2Proof/Safety.lean ====
section
/-! DEFINITION. The terms claims use: the invariants of 10_state.md section 5, runs over a stream, the reference functions of the
Normalizer and of the reset detector, and what "alike but for the NonBinary kind" means. -/

namespace Sys2Proof.Machine

/-- A `DecoderState` of R10 that is not Faulted: `buf` holds 0 to 45 entries (R29). -/
def State.live (s : State) : Prop :=
  s.fault = none ∧ s.buf.length ≤ 45

/-- The causes R115 lists: a token, or an index among 0 to 8 or among the payload indices of a layout. -/
def FaultCause.listed : FaultCause → Prop
  | .badToken _ => True
  | .unconvertible i => i ≤ 8 ∨ (12 ≤ i ∧ i ≤ 44)

/-- What holds between Steps: `run` is 0 to 49 (R30), `buf` holds 0 to 45 entries (R29) and none while Idle (R28), all three as long as
there is no fault (U4); a recorded cause is a listed one (R115); the buffer never has more than its 46 entries (R34); and the
Normalizer holds at most the data half of the record it is given (R61). -/
structure State.Inv (s : State) : Prop where
  run_le : s.fault = none → s.run ≤ 49
  buf_le : s.fault = none → s.buf.length ≤ 45
  idle_empty : s.fault = none → s.executing = false → s.buf = []
  cause_listed : ∀ c, s.fault = some c → c.listed
  buf_wf : s.buf.wf = true
  no_clock_half : s.tokClock = none

/-- Only stream initialisation takes a block out of Faulted (R72, R129). -/
def onlyRstClearsFault : Prop :=
  ∀ s t : State, s.fault ≠ none → step s = .next t → t.fault = none →
    ∃ p rest, s.input = { rst := true, present := p } :: rest

/-- Instructions run one after another, with the Output of each (R41): `none` where one of them stops. -/
def feed : List Instr → State → Option (State × List Output)
  | [], s => some (s, [])
  | i :: is, s =>
    match exec i s with
    | .next t =>
      match feed is t with
      | some (u, os) => some (u, t.output :: os)
      | none => none
    | .fault _ => none
    | .refused _ => none

/-- A stream of Cycles as the instructions it decodes to (R47). -/
def ofCycles (cs : List Cycle) : List Instr :=
  cs.map classOf

/-- The Events among the Outputs of a run (R133). -/
def eventsOf (os : List Output) : List Event :=
  os.filterMap fun
    | .event e => some e
    | .none => none
    | .fault _ => none

/-- The data values of the clock-low Cycles of a stream, in capture order. -/
def lowData (cs : List Cycle) : List DataValue :=
  (cs.filter fun c => !c.clock).map Cycle.data

/-- The reset detector alone, as a function of the data values (R84, R85, R87): for each Cycle, whether it is the one that brings the
count from `run` to 50; and the count left at the end. -/
def resetTrace : Nat → List DataValue → List Bool × Nat
  | run, [] => ([], run)
  | run, d :: ds =>
    if d = .bit true then
      if run + 1 = 50 then
        let r := resetTrace 0 ds
        (true :: r.1, r.2)
      else
        let r := resetTrace (run + 1) ds
        (false :: r.1, r.2)
    else
      let r := resetTrace 0 ds
      (false :: r.1, r.2)

/-- Whether an Output is the ResetEvent. -/
def Output.isReset : Output → Bool
  | .event .resetEvent => true
  | .event (.frame _) => false
  | .none => false
  | .fault _ => false

/-- Whether an Output is a Frame. -/
def Output.isFrame : Output → Bool
  | .event (.frame _) => true
  | .event .resetEvent => false
  | .none => false
  | .fault _ => false

/-- `Normalize(dtok, ctok)` (R61): the data token is examined first. -/
def normalizeRecord (dtok ctok : Byte) : Except TokenLine Cycle :=
  let data : Option DataValue :=
    if dtok = 0x30 then some (.bit false)
    else if dtok = 0x31 then some (.bit true)
    else if dtok = 0x48 then some (.nonBinary .forcedHigh)
    else if dtok = 0x4C then some (.nonBinary .forcedLow)
    else if dtok = 0x58 then some (.nonBinary .dontCare)
    else none
  match data with
  | none => .error .data
  | some d =>
    if ctok = 0x30 then .ok { clock := false, data := d }
    else if ctok = 0x31 then .ok { clock := true, data := d }
    else .error .clock

/-- A DataValue without its NonBinary kind. -/
def blind : DataValue → Option Bit
  | .bit b => some b
  | .nonBinary _ => none

/-- The indices that must be bit-valued in the format `rnw` names (R55, R109, R110). -/
def mustBeBit (rnw : Bit) (i : Nat) : Prop :=
  i ≤ 8 ∨ (if rnw then 12 ≤ i ∧ i ≤ 43 else 13 ≤ i ∧ i ≤ 44)

/-- A NonBinary value stands at index `i`. -/
def nonBinaryAt (buf : List DataValue) (i : Nat) : Prop :=
  ∃ k, buf[i]? = some (.nonBinary k)

/-- A completed buffer is illegal (R55): a NonBinary value stands at one of the indices 0 to 8 or, where `rnw` is a bit, at an index of the
payload it selects. -/
def illegalFrame (buf : List DataValue) : Prop :=
  ∃ i, nonBinaryAt buf i ∧ (i ≤ 8 ∨ ∃ rnw, buf[2]? = some (.bit rnw) ∧ mustBeBit rnw i)

/-- `i` is the index a fault on this completed buffer reports (R120): the lowest NonBinary index among 0 to 8 if there is one; otherwise the
lowest among the payload indices of the layout `rnw` selects. -/
def reportedIndex (buf : List DataValue) (i : Nat) : Prop :=
  nonBinaryAt buf i ∧
    ((i ≤ 8 ∧ ∀ j, j < i → ¬nonBinaryAt buf j) ∨
      (8 < i ∧ (∀ j, j ≤ 8 → ¬nonBinaryAt buf j) ∧
        ∃ rnw, buf[2]? = some (.bit rnw) ∧ mustBeBit rnw i ∧ ∀ j, 8 < j → j < i → mustBeBit rnw j → ¬nonBinaryAt buf j))

/-- The rest of a Step whose sub-steps 1 to 3 took `s` to `u` (R76, R116): nothing more below 46 entries; at 46, the Frame with
`executing` and the buffer cleared, or the fault with the record and the stream untouched. -/
def endsFrom (i : Instr) (s u : State) : Prop :=
  (u.buf.length < 46 → exec i s = .next u) ∧
  (∀ f, u.buf.length = 46 → extract u.buf = .ok f →
    exec i s = .next { u with output := .event (.frame f), executing := false, buf := [] }) ∧
  (∀ j, u.buf.length = 46 → extract u.buf = .error j →
    ∃ t, exec i s = .next t ∧ t.fault = some (.unconvertible j) ∧ t.output = .fault (.unconvertible j) ∧
      t.tokData = u.tokData ∧ t.tokClock = u.tokClock ∧ t.input = u.input)

end Sys2Proof.Machine
end

