-- ==== Sys2Proof/Certificates/Slice0/Obligations.lean ====
section
/-! DEFINITION. The statements about the model, from the numbered rules of the spec. -/

open Sys2Proof Sys2Proof.Machine

/-! ## State and initialisation -/

/-- R33: every element of the decoder at its value after initialisation, and the output ports with it. (`tokData`, `tokClock`, `input`
and `free` are the model's own fields: log entries 2, 4 and 6.) -/
def Obligations.ResetStateIsInitial : Prop :=
  State.reset.executing = false ∧ State.reset.run = 0 ∧ State.reset.buf = [] ∧ State.reset.fault = none ∧
    State.reset.evValid = false ∧ State.reset.faultPort = false ∧ State.reset.faultCausePort = 0 ∧
    State.reset.phase = .idle

/-- The invariant of 10_state.md section 5 holds after initialisation, with the bounds the model adds: on the record latches (log entry 2) and
on the free `buf` of a Faulted block (log entry 6). -/
def Obligations.InvariantHoldsAtReset : Prop :=
  State.reset.Inv

/-- R28, R29, R30: what holds between Steps is kept by every step, whatever is presented, from every state that has it. The bounds on
the record latches (log entry 2) and on the free `buf` of a Faulted block (log entry 6) are the model's. -/
def Obligations.EveryStepKeepsInvariant : Prop :=
  ∀ s t : State, s.Inv → step s = .next t → t.Inv

/-- From a state that has the invariant no step stops, but for a reserved port code (R48), which is refused
(in a Faulted block too by the model's choice, log entry 8). -/
def Obligations.OnlyReservedCodesStop : Prop :=
  ∀ s : State, s.Inv →
    (∃ t, step s = .next t) ∨
      (step s = .refused .reservedPortCode ∧
        ∃ w rest, s.input = { rst := false, present := .cycle w } :: rest ∧ decodeDataValue (w.extractLsb' 0 3) = none)

/-- R129: while `rst` is 1 what is presented is ignored and the block is initialised, from every state between Steps, Faulted ones
included, and what comes after is the stream; nothing else leaves Faulted. -/
def Obligations.RstInitialises : Prop :=
  (∀ (s : State) (p : Presented) (rest : List PortSample),
    s.frameDue = false → s.input = { rst := true, present := p } :: rest →
      ∃ t, step s = .next t ∧ t.executing = false ∧ t.run = 0 ∧ t.buf = [] ∧ t.fault = none ∧ t.output = .none ∧
        t.phase = .idle ∧ t.input = rest) ∧
    onlyRstClearsFault

/-- R133, R46: with nothing presented, or at the end of the stream, the block does nothing and drives no Event. That an
empty `input` is the end of the stream is the model's choice (log entry 4). -/
def Obligations.NoCycleNoStep : Prop :=
  ∀ s : State, s.frameDue = false →
    (s.input = [] → step s = .next { s with output := .none }) ∧
    (∀ rest, s.input = { rst := false, present := .nothing } :: rest →
      step s = .next { s with input := rest, output := .none })

/-! ## Faults -/

/-- R72: in a Faulted block every instruction changes nothing and outputs nothing; only stream initialisation leaves this state. -/
def Obligations.FaultedBlockIgnoresInstructions : Prop :=
  (∀ (i : Instr) (s : State) (c : FaultCause), s.fault = some c → exec i s = .next { s with output := .none }) ∧
    onlyRstClearsFault

/-- R22, R123: a fault stays, with the decoder state it left, until initialisation, and no other fault replaces it. That
`executing`, `run` and `buf` stay, once unspecified (U4), is R72's no-op as the model reads it (log entry 6). -/
def Obligations.FaultLastsUntilInitialised : Prop :=
  ∀ (s t : State) (c : FaultCause), s.fault = some c → step s = .next t →
    (t.fault = some c ∧ t.executing = s.executing ∧ t.run = s.run ∧ t.buf = s.buf ∧ t.output = .none) ∨
      (t.fault = none ∧ ∃ p rest, s.input = { rst := true, present := p } :: rest)

/-- R115, R116: a fault that arises in a step is a listed one, is that step's Output, and, where it is `Unconvertible(i)`, comes at the
46th entry of a buffer with a NonBinary value at the index it reports; 12 only in a read, 44 only in a write. -/
def Obligations.FaultsThatArise : Prop :=
  ∀ (s t : State) (c : FaultCause), s.Inv → s.fault = none → step s = .next t → t.fault = some c →
    c.listed ∧ t.output = .fault c ∧
      ∀ i, c = .unconvertible i →
        ∃ d, s.executing = true ∧ s.buf.length = 45 ∧ reportedIndex (s.buf ++ [d]) i ∧
          (i = 12 → s.buf[2]? = some (.bit true)) ∧ (i = 44 → s.buf[2]? = some (.bit false))

/-- R115, R57: the codes on `fault_cause`. -/
def Obligations.FaultCauseCodes : Prop :=
  FaultCause.code (.badToken .data) = 0b01000000 ∧ FaultCause.code (.badToken .clock) = 0b01000001 ∧
  (∀ i, i ≤ 45 → (FaultCause.code (.unconvertible i)).toNat = 128 + i) ∧
  ∀ s : State, (s.faultPort = true ↔ s.fault ≠ none) ∧ (s.fault = none → s.faultCausePort = 0) ∧
    ∀ c, s.fault = some c → s.faultCausePort = c.code

/-- The buffer has no index 46 (R34): a Cycle that would append there stops the model by name, which is the
model's choice (log entry 3). No state between Steps is one. -/
def Obligations.AppendPastBufferStops : Prop :=
  ∀ (s : State) (d : DataValue), s.fault = none → 46 ≤ s.buf.length → s.executing = true →
    (d = .bit true → s.run ≠ 49) → exec (classOf { clock := false, data := d }) s = .fault .bufferOverrun

/-! ## One statement for each Cycle class -/

/-- R78; it is the only class that arms. -/
def Obligations.CycL1Effect : Prop :=
  decode (.cycle 0b0001) = .ok .cycL1 ∧
  (∀ s : State, s.live →
    (s.run ≠ 49 → endsFrom .cycL1 s
      { s with executing := true, run := s.run + 1, buf := s.buf ++ [.bit true], output := .none }) ∧
    (s.run = 49 → exec .cycL1 s = .next
      { s with executing := true, run := 0, buf := [.bit true], output := .event .resetEvent })) ∧
    ∀ (c : Cycle) (s t : State), s.live → s.executing = false → exec (classOf c) s = .next t → t.executing = true →
      t.fault = none → classOf c = .cycL1

/-- R79. -/
def Obligations.CycH1Effect : Prop :=
  decode (.cycle 0b1001) = .ok .cycH1 ∧
  ∀ s : State, s.live →
    (s.run ≠ 49 → exec .cycH1 s = .next { s with run := s.run + 1, output := .none }) ∧
    (s.run = 49 → exec .cycH1 s = .next { s with run := 0, buf := [], output := .event .resetEvent })

/-- R80. -/
def Obligations.CycL0Effect : Prop :=
  decode (.cycle 0b0000) = .ok .cycL0 ∧
  ∀ s : State, s.live →
    (s.executing = false → exec .cycL0 s = .next { s with run := 0, output := .none }) ∧
    (s.executing = true → endsFrom .cycL0 s { s with run := 0, buf := s.buf ++ [.bit false], output := .none })

/-- R81. -/
def Obligations.CycH0Effect : Prop :=
  decode (.cycle 0b1000) = .ok .cycH0 ∧
  ∀ s : State, s.live → exec .cycH0 s = .next { s with run := 0, output := .none }

/-- R82; where this Cycle is the 46th entry, its own value is never the cause of a fault. -/
def Obligations.CycLNEffect : Prop :=
  (∀ w : BitVec 4, (∃ k, decode (.cycle w) = .ok (.cycLN k)) ↔ w.extractLsb' 2 2 = 0b01) ∧
  ∀ (k : NBKind) (s : State), s.live →
    (s.executing = false → exec (.cycLN k) s = .next { s with run := 0, output := .none }) ∧
    (s.executing = true → endsFrom (.cycLN k) s
      { s with run := 0, buf := s.buf ++ [.nonBinary k], output := .none }) ∧
    (∀ t, exec (.cycLN k) s = .next t → t.fault ≠ some (.unconvertible 45))

/-- R83. -/
def Obligations.CycHNEffect : Prop :=
  (∀ w : BitVec 4, (∃ k, decode (.cycle w) = .ok (.cycHN k)) ↔ w.extractLsb' 2 2 = 0b11) ∧
  ∀ (k : NBKind) (s : State), s.live → exec (.cycHN k) s = .next { s with run := 0, output := .none }

/-! ## The Step over all Cycles -/

/-- R77, the state machine as a table, from every state with an empty buffer while Idle (R28). -/
def Obligations.StepFollowsTransitionTable : Prop :=
  (∀ (c : Cycle) (s : State), s.live → (s.executing = false → s.buf = []) →
    ∃ t, exec (classOf c) s = .next t ∧
      (s.phase = .idle →
        (c.clock = false → c.data = .bit true → s.run ≠ 49 →
          t.output = .none ∧ t.phase = .armed ∧ t.buf = [.bit true]) ∧
        (c.clock = false → c.data = .bit true → s.run = 49 →
          t.output = .event .resetEvent ∧ t.phase = .armed ∧ t.buf = [.bit true]) ∧
        (c.clock = true → c.data = .bit true → s.run = 49 →
          t.output = .event .resetEvent ∧ t.phase = .idle ∧ t.buf = []) ∧
        (c.clock = true ∧ c.data = .bit true ∧ s.run ≠ 49 ∨ c.data ≠ .bit true →
          t.output = .none ∧ t.phase = .idle ∧ t.buf = [])) ∧
      (s.phase = .armed →
        (c.data = .bit true ∧ s.run = 49 →
          t.output = .event .resetEvent ∧ t.phase = .armed ∧ t.buf = if c.clock then [] else [.bit true]) ∧
        (¬(c.data = .bit true ∧ s.run = 49) →
          (c.clock = true → t.output = .none ∧ t.phase = .armed ∧ t.buf = s.buf) ∧
          (c.clock = false → s.buf.length < 45 →
            t.output = .none ∧ t.phase = .armed ∧ t.buf = s.buf ++ [c.data]) ∧
          (c.clock = false → s.buf.length = 45 →
            (∀ f, extract (s.buf ++ [c.data]) = .ok f →
              t.output = .event (.frame f) ∧ t.phase = .idle ∧ t.buf = []) ∧
            (∀ i, extract (s.buf ++ [c.data]) = .error i →
              t.output = .fault (.unconvertible i) ∧ t.phase = .faulted))))) ∧
  ∀ (c : Cycle) (s : State), s.phase = .faulted → ∃ t, exec (classOf c) s = .next t ∧ t.output = .none ∧ t.phase = .faulted

/-- R84: the counter is a function of the data value and `run` alone, and so is the ResetEvent: clock level, `executing` and the
buffer do not enter (R87). -/
def Obligations.ResetDetectorStep : Prop :=
  ∀ (c : Cycle) (s t : State), s.live → exec (classOf c) s = .next t →
    (t.output = .event .resetEvent ↔ c.data = .bit true ∧ s.run = 49) ∧
    (t.fault = none →
      t.run = if c.data = .bit true then (if s.run = 49 then 0 else s.run + 1) else 0)

/-- R85, R86: the 50th consecutive one emits a ResetEvent, zeroes the counter and discards what was collected, without any fault;
the Step goes on with the emptied buffer, so a clock-low Cycle becomes its first entry; `executing` is written only if the
Cycle arms. -/
def Obligations.ResetEventDiscardsTheFrame : Prop :=
  ∀ (c : Cycle) (s : State), s.live → c.data = .bit true → s.run = 49 →
    ∃ t, exec (classOf c) s = .next t ∧ t.output = .event .resetEvent ∧ t.fault = none ∧ t.run = 0 ∧
      t.executing = (s.executing || !c.clock) ∧ t.buf = (if c.clock then [] else [.bit true]) ∧
      t.tokData = s.tokData ∧ t.tokClock = s.tokClock ∧ t.input = s.input

/-- R18: `executing` is set only by the arming Cycle, presented directly or as a record, and cleared only with a Frame.
That the tokens of a record are run one at a time, in either order, is the model's choice (log entry 2). -/
def Obligations.ExecutingHasTwoWriters : Prop :=
  ∀ (i : Instr) (s t : State), s.fault = none → t.fault = none → exec i s = .next t →
    (s.executing = false → t.executing = true →
      i = .cycL1 ∨ (i = .tokenClock0 ∧ s.tokData = some (.bit true)) ∨
        (i = .tokenData1 ∧ s.tokClock = some false)) ∧
    (s.executing = true → t.executing = false → ∃ f, t.output = .event (.frame f))

/-- R70: no control decision reads the NonBinary kind. Two blocks that differ only in kinds, given Cycles that differ only in the kind,
end with the same flags, the same counter, the same length and buffers that differ only in kinds. -/
def Obligations.NonBinaryKindIsNeverTested : Prop :=
  ∀ (c c' : Cycle) (s s' t t' : State), s.live → s'.live →
    c.clock = c'.clock → blind c.data = blind c'.data →
    s.executing = s'.executing → s.run = s'.run → s.buf.map blind = s'.buf.map blind →
    exec (classOf c) s = .next t → exec (classOf c') s' = .next t' →
      t.fault = t'.fault ∧ t.output.isReset = t'.output.isReset ∧ t.output.isFrame = t'.output.isFrame ∧
        (t.fault = none → t.executing = t'.executing ∧ t.run = t'.run ∧ t.buf.map blind = t'.buf.map blind)

/-! ## Tokens and records -/

/-- R62 to R66: a data-line token gives the record its `data`; where the record already has its `clock`, its Cycle is presented.
The two latches that hold a record between its tokens are the model's choice (log entry 2). -/
def Obligations.DataTokenEffects : Prop :=
  ∀ (i : Instr) (d : DataValue) (s : State), s.live →
    (i, d) ∈ [(Instr.tokenData0, DataValue.bit false), (.tokenData1, .bit true), (.tokenDataH, .nonBinary .forcedHigh),
      (.tokenDataL, .nonBinary .forcedLow), (.tokenDataX, .nonBinary .dontCare)] →
    (s.tokClock = none → exec i s = .next { s with tokData := some d, output := .none }) ∧
    (∀ c, s.tokClock = some c → ∃ t, exec i s = .next t ∧
      exec (classOf { clock := c, data := d }) { s with tokData := none, tokClock := none } = .next t)

/-- R67, R68, R61: a clock-line token gives the record its `clock`; with its `data` already there, the record's Cycle is presented as the
next Cycle and nothing of the record is kept. The two latches that hold a record between its tokens are the model's choice (log entry 2). -/
def Obligations.ClockTokenEffects : Prop :=
  ∀ (i : Instr) (c : Bit) (s : State), s.live → (i, c) ∈ [(Instr.tokenClock0, false), (.tokenClock1, true)] →
    (∀ d, s.tokData = some d → ∃ t, exec i s = .next t ∧ t.tokData = none ∧ t.tokClock = none ∧
      exec (classOf { clock := c, data := d }) { s with tokData := none, tokClock := none } = .next t) ∧
    (s.tokData = none → exec i s = .next { s with tokClock := some c, output := .none })

/-- R61, R69, R117: a record on the token ports is `Normalize` followed by one Step of its Cycle, or by the fault `BadToken` with nothing else
written but the free values, the data-line token examined first. That half a record standing in the latches is discarded is the model's
choice (log entry 2). -/
def Obligations.RecordIsNormalizeThenStep : Prop :=
  ∀ (s : State) (dtok ctok : Byte) (rest : List PortSample), s.live →
    s.input = { rst := false, present := .record dtok ctok } :: rest →
    (∀ c, normalizeRecord dtok ctok = .ok c → ∃ u, step s = .next u ∧ u.tokData = none ∧ u.tokClock = none ∧ u.input = rest ∧
      exec (classOf c) { s with input := rest, tokData := none, tokClock := none } = .next u) ∧
    (∀ w, normalizeRecord dtok ctok = .error w → ∃ u, step s = .next u ∧ u.fault = some (.badToken w) ∧
      u.output = .fault (.badToken w) ∧ u.tokData = none ∧ u.tokClock = none ∧ u.input = rest)

/-- Log entry 2 (the model's choice): a record given one token at a time ends as the record given whole, with no Event or fault before the
token that decides it; once a bad data-line token faulted, the clock-line token is ignored (R117). -/
def Obligations.TokensOneByOneMakeTheRecord : Prop :=
  ∀ (s : State) (dtok ctok : Byte) (rest : List PortSample), s.live → s.tokData = none → s.tokClock = none →
    s.input = { rst := false, present := .token dtok } :: { rst := false, present := .token ctok } :: rest →
    (∀ c, normalizeRecord dtok ctok = .ok c → ∃ t u, step s = .next t ∧ t.output = .none ∧ step t = .next u ∧
      exec (classOf c) { s with input := rest } = .next u) ∧
    (normalizeRecord dtok ctok = .error .data → ∃ t u, step s = .next t ∧ t.fault = some (.badToken .data) ∧
      t.output = .fault (.badToken .data) ∧ step t = .next u ∧ u.fault = some (.badToken .data) ∧
      u.output = .none ∧ u.input = rest) ∧
    (normalizeRecord dtok ctok = .error .clock → ∃ t u, step s = .next t ∧ t.output = .none ∧ step t = .next u ∧
      u.fault = some (.badToken .clock) ∧ u.output = .fault (.badToken .clock) ∧ u.tokData = none ∧ u.input = rest)

/-! ## Frames -/

/-- R109, R110, R76, R27: a decoded frame is emitted, `executing` and the buffer are cleared, `run` and all else stay. That a frame
format is an instruction whose operand is the decoded Frame is deduced (log entry 7). -/
def Obligations.FrameInstructionEffects : Prop :=
  ∀ (f : Frame) (s : State), s.fault = none →
    exec (.frameWrite f) s = .next { s with output := .event (.frame f), executing := false, buf := [] } ∧
    exec (.frameRead f) s = .next { s with output := .event (.frame f), executing := false, buf := [] }

/-- R76: the Cycle that brings the buffer to 46 entries has the effect of the frame the buffer then decodes to, run on the state with the
counter updated and the entry appended. That a frame format is an instruction run there is deduced (log entry 7). -/
def Obligations.FortySixthEntryRunsTheFrame : Prop :=
  ∀ (d : DataValue) (i : Instr) (s : State), s.live → s.executing = true → s.buf.length = 45 →
    ¬(d = .bit true ∧ s.run = 49) → decode (.frame (s.buf ++ [d])) = .ok i →
      ∃ t, exec (classOf { clock := false, data := d }) s = .next t ∧
        exec i { s with run := (if d = .bit true then s.run + 1 else 0), buf := s.buf ++ [d] } = .next t

/-- R55: a completed buffer is rejected exactly when it is illegal, and otherwise decodes in the format its `rnw` names, whatever else it
holds (R56); where `rnw` itself is no bit the payload is not examined. The Step of the 46th entry raises the fault, or emits the
Frame, accordingly. -/
def Obligations.FrameDecodesExactlyWhenConvertible : Prop :=
  (∀ buf : List DataValue, buf.length = 46 →
    ((∃ i, decode (.frame buf) = .error (.unconvertible i)) ↔ illegalFrame buf) ∧
    (¬illegalFrame buf → ∃ f, buf[2]? = some (.bit f.rnw) ∧
      decode (.frame buf) = .ok (if f.rnw then .frameRead f else .frameWrite f)) ∧
    (nonBinaryAt buf 2 → ∃ i, i ≤ 2 ∧ decode (.frame buf) = .error (.unconvertible i))) ∧
  ∀ (d : DataValue) (s : State), s.live → s.executing = true → s.buf.length = 45 → ¬(d = .bit true ∧ s.run = 49) →
    ∃ t, exec (classOf { clock := false, data := d }) s = .next t ∧
      ((∃ i, t.output = .fault (.unconvertible i)) ↔ illegalFrame (s.buf ++ [d])) ∧
      ((∃ f, t.output = .event (.frame f)) ↔ ¬illegalFrame (s.buf ++ [d]))

/-- R120: which index a fault reports, as the decoder answers it and as the Step of the 46th entry raises it. -/
def Obligations.FaultReportsLowestIndex : Prop :=
  (∀ buf : List DataValue, buf.length = 46 → ∀ i : Nat,
    decode (.frame buf) = .error (.unconvertible i) ↔ reportedIndex buf i) ∧
  ∀ (d : DataValue) (s : State), s.live → s.executing = true → s.buf.length = 45 → ¬(d = .bit true ∧ s.run = 49) →
    ∃ t, exec (classOf { clock := false, data := d }) s = .next t ∧
      ∀ c, t.fault = some c ↔ ∃ i, c = .unconvertible i ∧ reportedIndex (s.buf ++ [d]) i

/-- R36: at any other length nothing is decoded. -/
def Obligations.PartialBufferIsNotDecoded : Prop :=
  ∀ buf : List DataValue, buf.length ≠ 46 → decode (.frame buf) = .error .partialFrame

/-- R93 to R102: the fields at indices 0 to 11 of a decoded frame, the same in both formats; a NonBinary value at one of the nine
plain bits is no frame, and `ack` may be anything. -/
def Obligations.FieldsAtIndicesZeroToEleven : Prop :=
  (∀ (buf : List DataValue) (f : Frame),
    decode (.frame buf) = .ok (.frameWrite f) ∨ decode (.frame buf) = .ok (.frameRead f) →
      buf[0]? = some (.bit f.start) ∧ buf[1]? = some (.bit f.apndp) ∧ buf[2]? = some (.bit f.rnw) ∧
      buf[3]? = some (.bit f.a2) ∧ buf[4]? = some (.bit f.a3) ∧ buf[5]? = some (.bit f.parity1) ∧
      buf[6]? = some (.bit f.stop) ∧ buf[7]? = some (.bit f.park) ∧ buf[8]? = some (.bit f.trn1) ∧
      buf[9]? = some f.ack.1 ∧ buf[10]? = some f.ack.2.1 ∧ buf[11]? = some f.ack.2.2) ∧
  (∀ (buf : List DataValue) (f : Frame), (decode (.frame buf) = .ok (.frameWrite f) → f.rnw = false) ∧
    (decode (.frame buf) = .ok (.frameRead f) → f.rnw = true)) ∧
  ∀ (buf : List DataValue) (i : Nat), buf.length = 46 → i ≤ 8 → nonBinaryAt buf i → (∀ j, j < i → ¬nonBinaryAt buf j) →
    decode (.frame buf) = .error (.unconvertible i)

/-- R103, R104, R105: the fields of the WRITE layout, and the fault of its payload. -/
def Obligations.WriteLayoutFields : Prop :=
  (∀ (buf : List DataValue) (f : Frame), decode (.frame buf) = .ok (.frameWrite f) →
    buf.length = 46 ∧ f.rnw = false ∧ buf[12]? = some f.trn2 ∧ buf[45]? = some f.parity2 ∧
      ∀ i, i < 32 → buf[13 + i]? = some (.bit (f.wdata.getLsbD i))) ∧
  ∀ (buf : List DataValue) (i : Nat), buf.length = 46 → buf[2]? = some (.bit false) →
    (∀ j, j ≤ 8 → ¬nonBinaryAt buf j) → i < 32 → nonBinaryAt buf (13 + i) → (∀ j, j < i → ¬nonBinaryAt buf (13 + j)) →
      decode (.frame buf) = .error (.unconvertible (13 + i))

/-- R106, R107, R108: the fields of the READ layout, and the fault of its payload. -/
def Obligations.ReadLayoutFields : Prop :=
  (∀ (buf : List DataValue) (f : Frame), decode (.frame buf) = .ok (.frameRead f) →
    buf.length = 46 ∧ f.rnw = true ∧ buf[45]? = some f.trn2 ∧ buf[44]? = some f.parity2 ∧
      ∀ i, i < 32 → buf[12 + i]? = some (.bit (f.wdata.getLsbD i))) ∧
  ∀ (buf : List DataValue) (i : Nat), buf.length = 46 → buf[2]? = some (.bit true) →
    (∀ j, j ≤ 8 → ¬nonBinaryAt buf j) → i < 32 → nonBinaryAt buf (12 + i) → (∀ j, j < i → ¬nonBinaryAt buf (12 + j)) →
      decode (.frame buf) = .error (.unconvertible (12 + i))

/-- R91: conversion of one buffered value, no NonBinary kind coerced. -/
def Obligations.ToBitConverts : Prop :=
  ∀ (buf : List DataValue) (i : Nat),
    (∀ b, buf[i]? = some (.bit b) → toBit buf i = .ok b) ∧ (nonBinaryAt buf i → toBit buf i = .error i)

/-- R111, R114: the reversal puts the bit captured `i`-th at position `i`, undoes the documented bit order, and a frame sent in that
order decodes to its own `wdata`. -/
def Obligations.BlockReversal : Prop :=
  (∀ cap : List Bit, cap.length = 32 → ∀ i, i < 32 → cap[i]? = some ((rev32 cap).getLsbD i)) ∧
  (∀ v : Word, rev32 ((List.range 32).map v.getLsbD) = v) ∧
  ∀ (f : Frame), ∃ g, g.wdata = f.wdata ∧
    decode (.frame (encodeFrame f)) = .ok (if f.rnw then .frameRead g else .frameWrite g)

/-! ## Whole streams -/

/-- R88: from a state between Steps, a run of `N` ones at any clock levels, with no frame faulting in it, brings
`(run + N) / 50` ResetEvents and leaves the counter at `(run + N) mod 50`. -/
def Obligations.RunOfOnesCountsResets : Prop :=
  ∀ (clocks : List Bit) (s : State), s.Inv → s.fault = none →
    ∃ t os, feed (ofCycles (clocks.map fun c => { clock := c, data := .bit true })) s = some (t, os) ∧
      (t.fault = none → os.countP Output.isReset = (s.run + clocks.length) / 50 ∧
        t.run = (s.run + clocks.length) % 50)

/-- R87: over any stream that raises no fault, at which Cycles the ResetEvents come and where the counter ends depend on the data values
alone: they are the detector's own, whatever the clock levels and whatever was being collected. -/
def Obligations.ResetEventsFollowDataAlone : Prop :=
  ∀ (cs : List Cycle) (s t : State) (os : List Output), s.Inv → s.fault = none →
    feed (ofCycles cs) s = some (t, os) → t.fault = none →
      (os.map Output.isReset, t.run) = resetTrace s.run (cs.map Cycle.data)

/-- R29, R41: a Frame takes 46 clock-low Cycles and no Cycle goes into two frames: over any stream, 46 for each Frame emitted are at most
the entries at the start and the clock-low Cycles presented. -/
def Obligations.FramesNeedTheirCycles : Prop :=
  ∀ (cs : List Cycle) (s t : State) (os : List Output), s.Inv → s.fault = none →
    feed (ofCycles cs) s = some (t, os) →
      46 * os.countP Output.isFrame ≤ s.buf.length + (lowData cs).length

/-- R114, R73 to R76: a frame sent in the documented bit order, its 46 values in the clock-low Cycles and anything at all in the clock-high Cycles
between them, decodes to itself: from Idle, when `start` is 1 and the stream holds no run of 50 ones, its one Event is that Frame
and the block is Idle again with an empty buffer. -/
def Obligations.SentFrameIsReceived : Prop :=
  ∀ (f : Frame) (cs : List Cycle) (s : State), s.Inv → s.fault = none → s.executing = false → f.start = true →
    lowData cs = encodeFrame f → (resetTrace s.run (cs.map Cycle.data)).1.all (fun b => !b) = true →
      ∃ t os, feed (ofCycles cs) s = some (t, os) ∧ eventsOf os = [.frame f] ∧
        t.fault = none ∧ t.executing = false ∧ t.buf = []

/-- R139, R76: two frames with no reset and no idle gap between them both decode, in order. -/
def Obligations.BackToBackFramesBothDecode : Prop :=
  ∀ (f g : Frame) (cs ds : List Cycle) (s : State), s.Inv → s.fault = none → s.executing = false →
    f.start = true → g.start = true → lowData cs = encodeFrame f → lowData ds = encodeFrame g →
    (resetTrace s.run ((cs ++ ds).map Cycle.data)).1.all (fun b => !b) = true →
      ∃ t os, feed (ofCycles (cs ++ ds)) s = some (t, os) ∧ eventsOf os = [.frame f, .frame g] ∧
        t.fault = none ∧ t.executing = false ∧ t.buf = []

/-! ## Encodings and the step -/

/-- R47, R48: the sixteen port words: six classes, every legal Cycle in exactly the class of its clock and data, four reserved codes. -/
def Obligations.PortWordsOfCycles : Prop :=
  (∀ c : Cycle, decode (.cycle (encodeCycle c)) = .ok (classOf c)) ∧
  ∀ w : BitVec 4, decode (.cycle w) = .error .reservedCode ↔ w ∈ [(0b0010 : BitVec 4), 0b0011, 0b1010, 0b1011]

/-- R44, R69: exactly five characters are data-line tokens and two are clock-line tokens. -/
def Obligations.TokensAccepted : Prop :=
  ∀ ch : Byte,
    (decode (.dataToken ch) = .error .badDataToken ↔ ch ∉ [(0x30 : Byte), 0x31, 0x48, 0x4C, 0x58]) ∧
    (decode (.clockToken ch) = .error .badClockToken ↔ ch ∉ [(0x30 : Byte), 0x31])

/-- A word of each group, written out from the spec's encodings; the last two in the opcode table's numbering as the model reads it (log
entry 5). -/
def Obligations.WrittenWordsDecode : Prop :=
  decode (.dataToken 0x48) = .ok .tokenDataH ∧ decode (.clockToken 0x31) = .ok .tokenClock1 ∧
  decode (.cycle 0b1001) = .ok .cycH1 ∧ decode (.cycle 0b0110) = .ok (.cycLN .forcedLow) ∧
  decodeTableWord 8 0x0 = some .cycL0 ∧ decodeTableWord 8 0x58 = some .tokenDataX

/-- Decoding what the encoder writes gives back every well-formed instruction with every operand. -/
def Obligations.DecodeOfEncode : Prop :=
  ∀ i : Instr, i.wellFormed = true → decode (encode i) = .ok i

/-- Every word the decoder accepts is the encoding of the instruction it gives, which is well-formed: no two words of a group mean the
same, and no bit is ignored. -/
def Obligations.EncodeOfDecode : Prop :=
  ∀ (e : Encoded) (i : Instr), decode e = .ok i → encode i = e ∧ i.wellFormed = true

/-- A step runs the instruction that its word decodes to: the next port sample, taken off the stream, as a Cycle or as the token its place
in the record makes it; the two tokens of a record, one after the other; or the completed buffer of a block that is not Faulted. The model's
choices: a record given one token a step, each token read by its place in the record (log entry 2), and a completed buffer found standing
(log entry 7). -/
def Obligations.StepRunsTheDecodedInstruction : Prop :=
  ∀ (s : State) (i : Instr),
    (∀ w rest, s.frameDue = false → s.input = { rst := false, present := .cycle w } :: rest →
      decode (.cycle w) = .ok i → step s = exec i { s with input := rest }) ∧
    (∀ ch rest, s.frameDue = false → s.input = { rst := false, present := .token ch } :: rest →
      decode (if s.tokData = none then .dataToken ch else .clockToken ch) = .ok i →
      step s = exec i { s with input := rest }) ∧
    (∀ dtok ctok rest j t, s.frameDue = false → s.input = { rst := false, present := .record dtok ctok } :: rest →
      decode (.dataToken dtok) = .ok i → decode (.clockToken ctok) = .ok j →
      exec i { s with input := rest, tokData := none, tokClock := none } = .next t → step s = exec j t) ∧
    (s.frameDue = true → decode (.frame s.buf) = .ok i → step s = exec i s)

/-- R48: a reserved code on `in_data` is refused, in a Faulted block too by the model's choice (log entry 8). -/
def Obligations.ReservedCodeIsRefused : Prop :=
  ∀ (s : State) (w : BitVec 4) (rest : List PortSample), s.frameDue = false →
    s.input = { rst := false, present := .cycle w } :: rest → w ∈ [(0b0010 : BitVec 4), 0b0011, 0b1010, 0b1011] →
      step s = .refused .reservedPortCode

/-- R69, R117: a token that is none raises `BadToken` in a block that is not Faulted: no Cycle of the record, the rest of the
stream still to come. That the tokens come one a step is the model's choice (log entry 2). -/
def Obligations.BadTokenRaises : Prop :=
  ∀ (s : State) (ch : Byte) (rest : List PortSample), s.live →
    s.input = { rst := false, present := .token ch } :: rest →
    (s.tokData = none → decode (.dataToken ch) = .error .badDataToken →
      ∃ t, step s = .next t ∧ t.fault = some (.badToken .data) ∧ t.output = .fault (.badToken .data) ∧
        t.tokData = none ∧ t.tokClock = none ∧ t.input = rest) ∧
    (s.tokData ≠ none → decode (.clockToken ch) = .error .badClockToken →
      ∃ t, step s = .next t ∧ t.fault = some (.badToken .clock) ∧ t.output = .fault (.badToken .clock) ∧
        t.tokData = none ∧ t.tokClock = none ∧ t.input = rest)

/-- R57: the Event ports: `ev_valid` is 1 exactly in a Step whose Output is an Event, `ev_kind` tells which, and the `f_*` ports carry the
Frame. Where the spec leaves a port unspecified (U6) the model gives it no value, which is the model's choice (log entry 9): `ev_kind`
without an Event, and each `f_*` port without a Frame. -/
def Obligations.EventPorts : Prop :=
  ∀ s : State,
    (s.evValid = true ↔ ∃ e, s.output = .event e) ∧
    (s.evKind = some false ↔ s.output = .event .resetEvent) ∧
    (s.evKind = some true ↔ ∃ f, s.output = .event (.frame f)) ∧
    (s.evKind = none ↔ ¬∃ e, s.output = .event e) ∧
    (∀ f, s.framePorts = some f ↔ s.output = .event (.frame f)) ∧
    (∀ f, s.output = .event (.frame f) → s.wdataPort = some f.wdata ∧
      s.trn2Port = some (encodeDataValue f.trn2) ∧ s.parity2Port = some (encodeDataValue f.parity2) ∧
      ∃ p, s.ackPort = some p ∧ p.extractLsb' 0 3 = encodeDataValue f.ack.1 ∧
        p.extractLsb' 3 3 = encodeDataValue f.ack.2.1 ∧ p.extractLsb' 6 3 = encodeDataValue f.ack.2.2) ∧
    ((¬∃ f, s.output = .event (.frame f)) →
      s.framePorts = none ∧ s.ackPort = none ∧ s.trn2Port = none ∧ s.wdataPort = none ∧ s.parity2Port = none)

/-- R58, R60: the token group of a capture line and the digits of `wdata` (formats outside the block, R5, which the
model writes down by its own choice, log entry 11): the digits, read as a numeral,
are the value, and they are the captured bits reversed. -/
def Obligations.TextFormsOfTheCollaborators : Prop :=
  (∀ v : Word, (wdataDigits v).length = 32 ∧ ofDigits (wdataDigits v) = v.toNat ∧
    ∀ cap : List Bit, cap.length = 32 → wdataDigits (rev32 cap) = cap.reverse) ∧
  ∀ c0 c1 c2 c3 : Byte, (recordOfGroup c0 c1 c2 c3 = some (c1, c0) ↔
      ∀ c ∈ [c0, c1, c2, c3], c ∈ [(0x30 : Byte), 0x31, 0x48, 0x4C, 0x58]) ∧
    ((∃ c ∈ [c0, c1, c2, c3], c ∉ [(0x30 : Byte), 0x31, 0x48, 0x4C, 0x58]) → recordOfGroup c0 c1 c2 c3 = none)

/-! ## What `rst` does to the model's own fields -/

/-- Log entry 10 (the model's choice): `rst` also discards a record of which one token was presented, and keeps the free-value
counter. -/
def Obligations.RstDiscardsHalfRecord : Prop :=
  ∀ (s : State) (p : Presented) (rest : List PortSample), s.frameDue = false → s.input = { rst := true, present := p } :: rest →
    ∃ t, step s = .next t ∧ t.tokData = none ∧ t.tokClock = none ∧ t.free = s.free
end

