-- ==== Sys2Proof/Laws/Extract.lean ====
section
/-! SUPPORT. What the conversions of the field extractor answer, and what the block reversal is, bit by bit. -/

namespace Sys2Proof.Machine

/-! ## `ToBit` and its iteration -/

theorem toBit_ok_iff {buf : List DataValue} {i : Nat} {b : Bit} :
    toBit buf i = .ok b ↔ buf[i]? = some (.bit b) := by
  unfold toBit
  split
  · rename_i x h; simp [h]
  · rename_i h
    constructor
    · intro hh; cases hh
    · intro hh; exact absurd hh (h b)

theorem toBit_error_iff {buf : List DataValue} {i j : Nat} :
    toBit buf i = .error j ↔ j = i ∧ ∀ b, buf[i]? ≠ some (.bit b) := by
  unfold toBit
  split
  · rename_i x h; simp [h]
  · rename_i h
    constructor
    · intro hh; cases hh; exact ⟨rfl, h⟩
    · rintro ⟨rfl, -⟩; rfl

/-- `n` conversions succeed with `bs` exactly when the `n` entries are the bits `bs`. -/
theorem toBits_ok_iff {buf : List DataValue} {n i : Nat} {bs : List Bit} :
    toBits buf i n = .ok bs ↔ bs.length = n ∧ ∀ j, j < n → buf[i + j]? = (bs[j]?).map .bit := by
  induction n generalizing i bs with
  | zero => cases bs <;> simp [toBits]
  | succ n ih =>
    simp only [toBits]
    cases h : toBit buf i with
    | error k =>
      obtain ⟨-, hne⟩ := toBit_error_iff.1 h
      constructor
      · intro hh; cases hh
      · rintro ⟨hl, hj⟩
        cases bs with
        | nil => simp at hl
        | cons b bs => exact absurd (by simpa using hj 0 (by omega)) (hne b)
    | ok b =>
      have hb := toBit_ok_iff.1 h
      simp only
      cases h2 : toBits buf (i + 1) n with
      | error k =>
        constructor
        · intro hh; cases hh
        · rintro ⟨hl, hj⟩
          cases bs with
          | nil => simp at hl
          | cons b' bs' =>
            have : toBits buf (i + 1) n = .ok bs' := by
              refine ih.2 ⟨by simpa using hl, fun j hlt => ?_⟩
              have := hj (j + 1) (by omega)
              rw [show i + 1 + j = i + (j + 1) by omega]
              simpa using this
            rw [h2] at this; cases this
      | ok bs' =>
        obtain ⟨hl', hj'⟩ := ih.1 h2
        constructor
        · intro hh
          cases hh
          refine ⟨by simpa using hl', fun j hlt => ?_⟩
          cases j with
          | zero => simpa using hb
          | succ j =>
            have := hj' j (by omega)
            rw [show i + 1 + j = i + (j + 1) by omega] at this
            simpa using this
        · rintro ⟨hl, hj⟩
          cases bs with
          | nil => simp at hl
          | cons b2 bs2 =>
            have h0 := hj 0 (by omega)
            have hb2 : b = b2 := by simpa [hb] using h0
            have : toBits buf (i + 1) n = .ok bs2 := by
              refine ih.2 ⟨by simpa using hl, fun j hlt => ?_⟩
              have := hj (j + 1) (by omega)
              rw [show i + 1 + j = i + (j + 1) by omega]
              simpa using this
            rw [h2] at this
            cases this
            rw [hb2]

/-- They fail at the first entry that is no bit. -/
theorem toBits_error_iff {buf : List DataValue} {n i k : Nat} :
    toBits buf i n = .error k ↔
      i ≤ k ∧ k < i + n ∧ (∀ b, buf[k]? ≠ some (.bit b)) ∧ ∀ j, i ≤ j → j < k → ∃ b, buf[j]? = some (.bit b) := by
  induction n generalizing i with
  | zero =>
    simp only [toBits]
    constructor
    · intro h; cases h
    · rintro ⟨h1, h2, -⟩; omega
  | succ n ih =>
    simp only [toBits]
    cases h : toBit buf i with
    | error m =>
      obtain ⟨rfl, hne⟩ := toBit_error_iff.1 h
      simp only
      constructor
      · intro hh; cases hh
        exact ⟨le_refl _, by omega, hne, fun j h1 h2 => by omega⟩
      · rintro ⟨h1, h2, h3, h4⟩
        by_cases hk : k = m
        · rw [hk]
        · obtain ⟨b, hb⟩ := h4 m (le_refl _) (by omega)
          exact absurd hb (hne b)
    | ok b =>
      have hb := toBit_ok_iff.1 h
      simp only
      refine Iff.trans (b := toBits buf (i + 1) n = .error k) (by cases toBits buf (i + 1) n <;> simp) ?_
      rw [ih]
      constructor
      · rintro ⟨h1, h2, h3, h4⟩
        refine ⟨by omega, by omega, h3, fun j hj1 hj2 => ?_⟩
        by_cases hji : j = i
        · exact ⟨b, hji ▸ hb⟩
        · exact h4 j (by omega) hj2
      · rintro ⟨h1, h2, h3, h4⟩
        have : k ≠ i := by rintro rfl; exact h3 b hb
        exact ⟨by omega, by omega, h3, fun j hj1 hj2 => h4 j (by omega) hj2⟩

/-- An entry that exists is what a verbatim operand gives (R92). -/
theorem verbatim_of_lt {buf : List DataValue} {i : Nat} (h : i < buf.length) :
    buf[i]? = some (verbatim buf i) := by
  simp [verbatim, List.getD, List.getElem?_eq_getElem h]

/-! ## The two ways `extract` can end -/

theorem extract_ok {buf : List DataValue} {f : Frame} (h : extract buf = .ok f) :
    ∃ plain cap, toBits buf 0 9 = .ok plain ∧
      toBits buf (layout (plain.getD 2 false)).base 32 = .ok cap ∧
      f = assemble buf plain cap (layout (plain.getD 2 false)) := by
  unfold extract plainBits wdataWidth at h
  split at h
  · cases h
  · rename_i plain hp
    simp only at h
    split at h
    · cases h
    · rename_i cap hc
      cases h
      exact ⟨plain, cap, hp, hc, rfl⟩

theorem extract_of_bits {buf : List DataValue} {plain cap : List Bit} (hp : toBits buf 0 9 = .ok plain)
    (hc : toBits buf (layout (plain.getD 2 false)).base 32 = .ok cap) :
    extract buf = .ok (assemble buf plain cap (layout (plain.getD 2 false))) := by
  unfold extract plainBits wdataWidth
  rw [hp]
  simp only
  rw [hc]

theorem extract_error_iff {buf : List DataValue} {i : Nat} :
    extract buf = .error i ↔ toBits buf 0 9 = .error i ∨
      ∃ plain, toBits buf 0 9 = .ok plain ∧ toBits buf (layout (plain.getD 2 false)).base 32 = .error i := by
  unfold extract plainBits wdataWidth
  cases hp : toBits buf 0 9 with
  | error k => simp
  | ok plain =>
    simp only [reduceCtorEq, Except.ok.injEq, exists_eq_left', false_or]
    cases toBits buf (layout (plain.getD 2 false)).base 32 <;> simp

/-! ## Conversion does not read the NonBinary kind (R70) -/

theorem toBit_of_alike {a b : List DataValue} (g : DataValue → Option Bit) (hg : ∀ x, g (.bit x) = some x)
    (hn : ∀ k, g (.nonBinary k) = none) (h : a.map g = b.map g) (i : Nat) : toBit a i = toBit b i := by
  have hi : (a[i]?).map g = (b[i]?).map g := by simpa using congrArg (fun l => l[i]?) h
  unfold toBit
  match ha : a[i]?, hb : b[i]? with
  | none, none => rfl
  | none, some y => simp [ha, hb] at hi
  | some x, none => simp [ha, hb] at hi
  | some (.bit x), some (.bit y) =>
    simp [ha, hb, hg] at hi
    rw [hi]
  | some (.bit x), some (.nonBinary l) => simp [ha, hb, hg, hn] at hi
  | some (.nonBinary k), some (.bit y) => simp [ha, hb, hg, hn] at hi
  | some (.nonBinary k), some (.nonBinary l) => rfl

theorem toBits_congr {a b : List DataValue} (h : ∀ i, toBit a i = toBit b i) (n i : Nat) :
    toBits a i n = toBits b i n := by
  induction n generalizing i with
  | zero => rfl
  | succ n ih => simp only [toBits, h, ih]

/-! ## The block reversal -/

/-- A numeral written in reverse is read from its least significant digit. -/
theorem ofDigits_reverse_cons (b : Bit) (l : List Bit) :
    ofDigits (b :: l).reverse = b.toNat + 2 * ofDigits l.reverse := by
  simp [ofDigits, List.foldl_append]
  omega

theorem ofDigits_reverse_lt (l : List Bit) : ofDigits l.reverse < 2 ^ l.length := by
  induction l with
  | nil => simp [ofDigits]
  | cons b l ih =>
    rw [ofDigits_reverse_cons, List.length_cons, Nat.pow_succ]
    have := b.toNat_le
    omega

theorem ofDigits_reverse_testBit (l : List Bit) (i : Nat) :
    (ofDigits l.reverse).testBit i = l.getD i false := by
  induction l generalizing i with
  | nil => simp [ofDigits]
  | cons b l ih =>
    rw [ofDigits_reverse_cons]
    cases i with
    | zero => cases b <;> simp [Nat.testBit_zero, Nat.add_mod]
    | succ i =>
      rw [Nat.testBit_succ, show (b.toNat + 2 * ofDigits l.reverse) / 2 = ofDigits l.reverse by have := b.toNat_le; omega, ih]
      simp

end Sys2Proof.Machine
end

