-- ==== Sys2Proof/Laws/State.lean ====
section
/-! SUPPORT. For each operation that writes a fixed set of fields, what each field of its result is. -/

namespace Sys2Proof.Machine

/-! ## `State.quiet`: only the Output -/

@[simp] theorem State.quiet_executing (s : State) : (s.quiet).executing = s.executing := rfl
@[simp] theorem State.quiet_run (s : State) : (s.quiet).run = s.run := rfl
@[simp] theorem State.quiet_buf (s : State) : (s.quiet).buf = s.buf := rfl
@[simp] theorem State.quiet_fault (s : State) : (s.quiet).fault = s.fault := rfl
@[simp] theorem State.quiet_output (s : State) : (s.quiet).output = .none := rfl
@[simp] theorem State.quiet_tokData (s : State) : (s.quiet).tokData = s.tokData := rfl
@[simp] theorem State.quiet_tokClock (s : State) : (s.quiet).tokClock = s.tokClock := rfl
@[simp] theorem State.quiet_input (s : State) : (s.quiet).input = s.input := rfl
@[simp] theorem State.quiet_free (s : State) : (s.quiet).free = s.free := rfl

/-! ## `emitFrame`: the Frame, Idle, an empty buffer (R76) -/

@[simp] theorem emitFrame_executing (f : Frame) (s : State) : (emitFrame f s).executing = false := rfl
@[simp] theorem emitFrame_run (f : Frame) (s : State) : (emitFrame f s).run = s.run := rfl
@[simp] theorem emitFrame_buf (f : Frame) (s : State) : (emitFrame f s).buf = [] := rfl
@[simp] theorem emitFrame_fault (f : Frame) (s : State) : (emitFrame f s).fault = s.fault := rfl
@[simp] theorem emitFrame_output (f : Frame) (s : State) : (emitFrame f s).output = .event (.frame f) := rfl
@[simp] theorem emitFrame_tokData (f : Frame) (s : State) : (emitFrame f s).tokData = s.tokData := rfl
@[simp] theorem emitFrame_tokClock (f : Frame) (s : State) : (emitFrame f s).tokClock = s.tokClock := rfl
@[simp] theorem emitFrame_input (f : Frame) (s : State) : (emitFrame f s).input = s.input := rfl
@[simp] theorem emitFrame_free (f : Frame) (s : State) : (emitFrame f s).free = s.free := rfl

/-! ## `raise`: the cause, the Output, and three free values (R116) -/

@[simp] theorem raise_executing (c : FaultCause) (s : State) : (raise c s).executing = Config.freeExecuting s.free := rfl
@[simp] theorem raise_run (c : FaultCause) (s : State) : (raise c s).run = Config.freeRun s.free % 64 := rfl
@[simp] theorem raise_buf (c : FaultCause) (s : State) : (raise c s).buf = (Config.freeBuf s.free).take 46 := rfl
@[simp] theorem raise_fault (c : FaultCause) (s : State) : (raise c s).fault = some c := rfl
@[simp] theorem raise_output (c : FaultCause) (s : State) : (raise c s).output = .fault c := rfl
@[simp] theorem raise_tokData (c : FaultCause) (s : State) : (raise c s).tokData = s.tokData := rfl
@[simp] theorem raise_tokClock (c : FaultCause) (s : State) : (raise c s).tokClock = s.tokClock := rfl
@[simp] theorem raise_input (c : FaultCause) (s : State) : (raise c s).input = s.input := rfl
@[simp] theorem raise_free (c : FaultCause) (s : State) : (raise c s).free = s.free + 1 := rfl

/-! ## `initialise`: all but the stream and the free-value counter (R129) -/

@[simp] theorem initialise_executing (s : State) : (initialise s).executing = false := rfl
@[simp] theorem initialise_run (s : State) : (initialise s).run = 0 := rfl
@[simp] theorem initialise_buf (s : State) : (initialise s).buf = [] := rfl
@[simp] theorem initialise_fault (s : State) : (initialise s).fault = none := rfl
@[simp] theorem initialise_output (s : State) : (initialise s).output = .none := rfl
@[simp] theorem initialise_tokData (s : State) : (initialise s).tokData = none := rfl
@[simp] theorem initialise_tokClock (s : State) : (initialise s).tokClock = none := rfl
@[simp] theorem initialise_input (s : State) : (initialise s).input = s.input := rfl
@[simp] theorem initialise_free (s : State) : (initialise s).free = s.free := rfl

end Sys2Proof.Machine
end

