-- ==== Sys2Proof/Laws/Ops.lean ====
section
/-! SUPPORT. The buffer laws, and what one Step, a token, a decoded frame and a rejected word can do. -/

namespace Sys2Proof.Machine

/-! ## The frame buffer -/

theorem Memory.wf_iff (m : Memory) : m.wf = true ↔ m.length ≤ 46 := by
  simp [Memory.wf]

/-- Every append keeps the buffer within its 46 entries. -/
theorem Memory.append_wf {m b : Memory} {d : DataValue} (h : m.append d = some b) : b.wf = true := by
  unfold Memory.append at h
  split at h
  · obtain rfl := Option.some.inj h
    simp only [Memory.wf_iff, List.length_append, List.length_singleton]
    omega
  · cases h

/-- The clear (R37) leaves a buffer within its 46 entries. -/
theorem Memory.nil_wf : Memory.wf [] = true := rfl

/-- So does a fault, whose buffer is a free value cut to 46 entries. -/
theorem raise_buf_wf (c : FaultCause) (s : State) : (raise c s).buf.wf = true := by
  simp only [raise_buf, Memory.wf_iff, List.length_take]
  omega

theorem Memory.append_of_lt {m : Memory} {d : DataValue} (h : m.length < 46) : m.append d = some (m ++ [d]) := by
  simp [Memory.append, h]

/-- Reading after an append: the new entry at index `len(buf)`, every other as before (R35). -/
theorem Memory.read_append {m b : Memory} {d : DataValue} (h : m.append d = some b) (i : Nat) :
    b.read i = if i = m.length then some d else m.read i := by
  unfold Memory.append at h
  split at h
  · obtain rfl := Option.some.inj h
    simp only [Memory.read, List.getElem?_append]
    split
    · split
      · omega
      · rfl
    · split
      · simp_all
      · have : m.length < i := by omega
        rw [List.getElem?_eq_none (by simp; omega), List.getElem?_eq_none (by omega)]
  · cases h

/-! ## The Step -/

/-- The Cycle makes the run of ones reach 50. -/
abbrev hitsFifty (c : Cycle) (s : State) : Prop :=
  c.data = .bit true ∧ s.run = 49

/-- `executing` as sub-step 3 sees it. -/
abbrev armedBy (c : Cycle) (s : State) : Bit :=
  s.executing || (!c.clock && decide (c.data = .bit true))

/-- The state after sub-steps 1 to 3 of a block between Steps. -/
def collected (c : Cycle) (s : State) : State :=
  { s with
    executing := armedBy c s
    run := if c.data = .bit true then (if s.run = 49 then 0 else s.run + 1) else 0
    buf := (if hitsFifty c s then [] else s.buf) ++ (if !c.clock && armedBy c s then [c.data] else [])
    output := if hitsFifty c s then .event .resetEvent else .none }

/-- One Step of a block that is not Faulted, with a buffer of at most 45 entries, is sub-step 4 on `collected`: it always
answers a next state. -/
theorem decoderStep_live (c : Cycle) {s : State} (h : s.live) :
    decoderStep c s = .next (complete (collected c s)) := by
  obtain ⟨hf, hb⟩ := h
  obtain ⟨clk, d⟩ := c
  have hrun : ∀ r : Nat, r + 1 = resetRun ↔ r = 49 := by intro r; simp [resetRun]
  have h0 : ¬(0 = resetRun) := by simp [resetRun]
  have hlt : s.buf.length < 46 := by omega
  unfold decoderStep
  rw [hf]
  by_cases hd : d = .bit true
  · subst hd
    by_cases hr : s.run = 49 <;> cases clk <;> cases he : s.executing <;>
      simp [arm, countOnes, lineReset, accumulate, collected, armedBy, hitsFifty, Memory.append, hrun, hr, he, hlt]
  · cases clk <;> cases he : s.executing <;>
      simp [arm, countOnes, lineReset, accumulate, collected, armedBy, hitsFifty, Memory.append, hd, h0, he, hlt]

/-- A line reset leaves at most its own Cycle in the buffer (R32). -/
theorem collected_len_of_fifty {c : Cycle} {s : State} (h : hitsFifty c s) : (collected c s).buf.length ≤ 1 := by
  simp only [collected, if_pos h, List.nil_append]
  split <;> simp

/-- Sub-step 4 in its three cases. -/
theorem complete_cases (s : State) :
    (s.buf.length ≠ 46 ∧ complete s = s) ∨
    (∃ f, s.buf.length = 46 ∧ extract s.buf = .ok f ∧ complete s = emitFrame f s) ∨
    (∃ i, s.buf.length = 46 ∧ extract s.buf = .error i ∧ complete s = raise (.unconvertible i) s) := by
  unfold complete frameLen
  split
  · rename_i h
    cases he : extract s.buf with
    | ok f => exact .inr (.inl ⟨f, h, rfl, rfl⟩)
    | error i => exact .inr (.inr ⟨i, h, rfl, rfl⟩)
  · rename_i h
    exact .inl ⟨h, rfl⟩

/-- Each Cycle class runs one Step of its Cycle. -/
theorem exec_classOf (c : Cycle) (s : State) : exec (classOf c) s = decoderStep c s := by
  obtain ⟨clk, d⟩ := c
  cases clk <;> cases d with
  | nonBinary k => rfl
  | bit b => cases b <;> rfl

/-- A Step never writes the record, the stream or, without a fault, the free-value counter. -/
theorem complete_keeps (s : State) :
    (complete s).tokData = s.tokData ∧ (complete s).tokClock = s.tokClock ∧ (complete s).input = s.input := by
  obtain ⟨-, h⟩ | ⟨f, -, -, h⟩ | ⟨i, -, -, h⟩ := complete_cases s <;> simp [h]

/-- A Faulted block ignores a Cycle (R72). -/
theorem decoderStep_faulted (c : Cycle) {s : State} {x : FaultCause} (h : s.fault = some x) :
    decoderStep c s = .next s.quiet := by
  simp [decoderStep, h]

theorem decodedFrame_live (f : Frame) {s : State} (h : s.fault = none) :
    decodedFrame f s = .next (emitFrame f s) := by
  simp [decodedFrame, h]

theorem dataToken_live (d : DataValue) {s : State} (h : s.fault = none) :
    dataToken d s = presentRecord { s with output := .none, tokData := some d } := by
  unfold dataToken
  split
  · simp_all
  · rfl

theorem clockToken_live (c : Bit) {s : State} (h : s.fault = none) :
    clockToken c s = presentRecord { s with output := .none, tokClock := some c } := by
  unfold clockToken
  split
  · simp_all
  · rfl

theorem dataToken_first (d : DataValue) {s : State} (h : s.fault = none) (hc : s.tokClock = none) :
    dataToken d s = .next { s with output := .none, tokData := some d } := by
  simp [dataToken, h, presentRecord, hc]

theorem clockToken_second (c : Bit) {s : State} {d : DataValue} (h : s.fault = none) (hd : s.tokData = some d) :
    clockToken c s = decoderStep { clock := c, data := d } { s with output := .none, tokData := none, tokClock := none } := by
  simp [clockToken, h, presentRecord, hd]

/-- A Step does not read the Output the state came with. -/
theorem decoderStep_output (c : Cycle) (o : Output) (s : State) :
    decoderStep c { s with output := o } = decoderStep c s := by
  unfold decoderStep State.quiet
  rfl

end Sys2Proof.Machine
end

