-- ==== Sys2Proof/Laws/Invariant.lean ====
section
/-! SUPPORT. Each shared operation keeps the invariant of 10_state.md section 5. -/

namespace Sys2Proof.Machine

/-- Between Steps no completed buffer stands (R29). -/
theorem due_false_of_inv {s : State} (h : s.Inv) : s.frameDue = false := by
  unfold State.frameDue frameLen
  cases hf : s.fault with
  | some c => simp
  | none => have := h.buf_le hf; simp; omega

/-- Without a fault the invariant is the spec's DecoderState. -/
theorem live_of_inv {s : State} (h : s.Inv) (hf : s.fault = none) : s.live := ⟨hf, h.buf_le hf⟩

/-- The extractor fails only at the indices R115 lists. -/
theorem extract_error_listed {buf : List DataValue} {i : Nat} (h : extract buf = .error i) :
    (FaultCause.unconvertible i).listed := by
  obtain h | ⟨plain, -, h⟩ := extract_error_iff.1 h
  · obtain ⟨-, h, -⟩ := toBits_error_iff.1 h
    exact .inl (by omega)
  · obtain ⟨h1, h2, -⟩ := toBits_error_iff.1 h
    right
    cases hr : plain.getD 2 false <;> rw [hr] at h1 h2 <;> simp [layout] at h1 h2 <;> omega

/-- A fault keeps it: what R30, R29 and R28 say of the other elements no longer applies (U4). -/
theorem raise_inv (c : FaultCause) (s : State) (hc : c.listed) (ht : s.tokClock = none) : (raise c s).Inv := by
  constructor
  · simp
  · simp
  · simp
  · intro x hx; simp at hx; exact hx ▸ hc
  · exact raise_buf_wf c s
  · simpa using ht

theorem quiet_inv {s : State} (h : s.Inv) : s.quiet.Inv := ⟨h.1, h.2, h.3, h.4, h.5, h.6⟩

/-- Sub-step 4 gives it back from at most 46 entries. -/
theorem complete_inv {s : State} (hf : s.fault = none) (hr : s.run ≤ 49) (hb : s.buf.length ≤ 46)
    (hi : s.executing = false → s.buf = []) (ht : s.tokClock = none) : (complete s).Inv := by
  obtain ⟨hne, h⟩ | ⟨f, -, -, h⟩ | ⟨i, -, he, h⟩ := complete_cases s
  · rw [h]
    exact ⟨fun _ => hr, fun _ => by omega, fun _ => hi, by simp [hf], by simp [Memory.wf_iff]; omega, ht⟩
  · rw [h]
    exact ⟨fun _ => hr, by simp, by simp, by simp [hf], by simp [Memory.wf_iff], ht⟩
  · rw [h]
    exact raise_inv _ _ (extract_error_listed he) ht

/-- Sub-steps 1 to 3 add at most one entry. -/
theorem collected_len (c : Cycle) {s : State} (h : s.buf.length ≤ 45) : (collected c s).buf.length ≤ 46 := by
  unfold collected
  simp only [List.length_append]
  split <;> split <;> simp <;> omega

/-- The Step of a Cycle keeps it. -/
theorem decoderStep_inv (c : Cycle) {s t : State} (hs : s.Inv) (h : decoderStep c s = .next t) : t.Inv := by
  cases hf : s.fault with
  | some x => rw [decoderStep_faulted c hf] at h; cases h; exact quiet_inv hs
  | none =>
    rw [decoderStep_live c (live_of_inv hs hf)] at h
    cases h
    have hr := hs.run_le hf
    have hi := hs.idle_empty hf
    refine complete_inv hf ?_ (collected_len c (hs.buf_le hf)) ?_ hs.no_clock_half
    · simp only [collected]; split <;> [split; skip] <;> omega
    · intro he
      simp only [collected] at he ⊢
      rw [he]
      have hse : s.executing = false := by simp [armedBy] at he; exact he.1
      simp [hi hse]

theorem emitFrame_inv (f : Frame) {s : State} (h : s.Inv) : (emitFrame f s).Inv :=
  ⟨h.1, by simp, by simp, h.4, by simp [Memory.wf_iff], h.6⟩

/-- A token keeps it, as long as no clock half comes to stand alone. -/
theorem presentRecord_inv {s t : State} (hf : s.fault = none) (h1 : s.run ≤ 49) (h2 : s.buf.length ≤ 45)
    (h3 : s.executing = false → s.buf = []) (hn : s.tokData = none → s.tokClock = none) (h : presentRecord s = .next t) : t.Inv := by
  have base : ({ s with tokData := none, tokClock := none } : State).Inv :=
    ⟨fun _ => h1, fun _ => h2, fun _ => h3, by simp [hf], by simp [Memory.wf_iff]; omega, rfl⟩
  unfold presentRecord at h
  split at h
  · exact decoderStep_inv _ base h
  · rename_i d e1 e2
    cases h
    exact ⟨fun _ => h1, fun _ => h2, fun _ => h3, by simp [hf], by simp [Memory.wf_iff]; omega, e2⟩
  · rename_i e1
    cases h
    exact ⟨fun _ => h1, fun _ => h2, fun _ => h3, by simp [hf], by simp [Memory.wf_iff]; omega, hn e1⟩

/-- A data-line token keeps it. -/
theorem dataToken_inv (d : DataValue) {s t : State} (hs : s.Inv) (h : dataToken d s = .next t) : t.Inv := by
  unfold dataToken at h
  split at h
  · cases h; exact quiet_inv hs
  · rename_i hf
    exact presentRecord_inv (s := { s with output := .none, tokData := some d }) hf (hs.run_le hf) (hs.buf_le hf) (hs.idle_empty hf)
      (by simp) h

/-- A clock-line token that comes second keeps it. -/
theorem clockToken_inv (c : Bit) {s t : State} (hs : s.Inv) (hd : s.tokData ≠ none) (h : clockToken c s = .next t) : t.Inv := by
  unfold clockToken at h
  split at h
  · cases h; exact quiet_inv hs
  · rename_i hf
    exact presentRecord_inv (s := { s with output := .none, tokClock := some c }) hf (hs.run_le hf) (hs.buf_le hf) (hs.idle_empty hf)
      (by simp [hd]) h

theorem withInput_inv {s : State} (h : s.Inv) (r : List PortSample) : ({ s with input := r } : State).Inv :=
  ⟨h.1, h.2, h.3, h.4, h.5, h.6⟩

/-- Stream initialisation establishes it. -/
theorem initialise_inv (s : State) : (initialise s).Inv := by
  constructor <;> simp [Memory.wf]

end Sys2Proof.Machine
end

