-- ==== Sys2Proof/Laws/PerInstr.lean ====
section
/-! SUPPORT. One family over the constructors of Instr: an instruction is encoded in its own group of the opcode table (R54). -/

namespace Sys2Proof

/-- The four groups of the opcode table (R54). -/
inductive Group where
  | tokenData
  | tokenClock
  | cycle
  | frame
deriving DecidableEq, Repr

/-- The group an instruction's row belongs to. -/
def Instr.group : Instr → Group
  | .tokenData0 => .tokenData
  | .tokenData1 => .tokenData
  | .tokenDataH => .tokenData
  | .tokenDataL => .tokenData
  | .tokenDataX => .tokenData
  | .tokenClock0 => .tokenClock
  | .tokenClock1 => .tokenClock
  | .cycL1 => .cycle
  | .cycH1 => .cycle
  | .cycL0 => .cycle
  | .cycH0 => .cycle
  | .cycLN _ => .cycle
  | .cycHN _ => .cycle
  | .frameWrite _ => .frame
  | .frameRead _ => .frame

/-- The group whose decoder reads a word. -/
def Encoded.group : Encoded → Group
  | .dataToken _ => .tokenData
  | .clockToken _ => .tokenClock
  | .cycle _ => .cycle
  | .frame _ => .frame

namespace Laws.EncodesInOwnGroup

def Statement (i : Instr) : Prop :=
  (encode i).group = i.group

theorem tokenData0 : Statement .tokenData0 := rfl
theorem tokenData1 : Statement .tokenData1 := rfl
theorem tokenDataH : Statement .tokenDataH := rfl
theorem tokenDataL : Statement .tokenDataL := rfl
theorem tokenDataX : Statement .tokenDataX := rfl
theorem tokenClock0 : Statement .tokenClock0 := rfl
theorem tokenClock1 : Statement .tokenClock1 := rfl
theorem cycL1 : Statement .cycL1 := rfl
theorem cycH1 : Statement .cycH1 := rfl
theorem cycL0 : Statement .cycL0 := rfl
theorem cycH0 : Statement .cycH0 := rfl
theorem cycLN (k : NBKind) : Statement (.cycLN k) := rfl
theorem cycHN (k : NBKind) : Statement (.cycHN k) := rfl
theorem frameWrite (f : Frame) : Statement (.frameWrite f) := rfl
theorem frameRead (f : Frame) : Statement (.frameRead f) := rfl

end Laws.EncodesInOwnGroup

end Sys2Proof
end

