-- ==== Sys2Proof/Laws/Step.lean ====
section
/-! SUPPORT. What one step of the machine can do between Steps, said once. -/

namespace Sys2Proof.Machine

/-- What a step between Steps does, by what is presented. -/
theorem step_cases (s : State) (hd : s.frameDue = false) :
    (s.input = [] ∧ step s = .next s.quiet) ∨
    (∃ p rest, s.input = ⟨true, p⟩ :: rest ∧ step s = .next (initialise { s with input := rest })) ∨
    (∃ rest, s.input = ⟨false, .nothing⟩ :: rest ∧ step s = .next { s with input := rest, output := .none }) ∨
    (∃ w rest, s.input = ⟨false, .cycle w⟩ :: rest ∧
      ((∃ i, decode (.cycle w) = .ok i ∧ step s = exec i { s with input := rest }) ∨
       (∃ r, decode (.cycle w) = .error r ∧ step s = rejectWord r { s with input := rest }))) ∨
    (∃ ch rest, s.input = ⟨false, .token ch⟩ :: rest ∧ ∃ e, e = (if s.tokData.isSome then Encoded.clockToken ch else .dataToken ch) ∧
      ((∃ i, decode e = .ok i ∧ step s = exec i { s with input := rest }) ∨
       (∃ r, decode e = .error r ∧ step s = rejectWord r { s with input := rest }))) ∨
    (∃ dtok ctok rest, s.input = ⟨false, .record dtok ctok⟩ :: rest ∧
      step s = runRecord dtok ctok { s with input := rest, tokData := none, tokClock := none }) := by
  have dec : ∀ (e : Encoded) (t : State), fetch s = .word e t →
      ((∃ i, decode e = .ok i ∧ step s = exec i t) ∨ (∃ r, decode e = .error r ∧ step s = rejectWord r t)) := by
    intro e t he
    unfold step
    rw [he]
    cases hde : decode e with
    | ok i => left; exact ⟨i, rfl, by simp only [runWord, hde]⟩
    | error r => right; exact ⟨r, rfl, by simp only [runWord, hde]⟩
  cases hi : s.input with
  | nil => left; exact ⟨rfl, by simp [step, fetch, hd, hi]⟩
  | cons p rest =>
    obtain ⟨r, p⟩ := p
    right
    cases r with
    | true => left; exact ⟨p, rest, rfl, by simp [step, fetch, hd, hi, fetchSample]⟩
    | false =>
      right
      cases p with
      | nothing => left; exact ⟨rest, rfl, by simp [step, fetch, hd, hi, fetchSample, State.quiet]⟩
      | cycle w => right; left; exact ⟨w, rest, rfl, dec _ _ (by simp [fetch, hd, hi, fetchSample])⟩
      | record dtok ctok => right; right; right; exact ⟨dtok, ctok, rest, rfl, by simp [step, fetch, hd, hi, fetchSample]⟩
      | token ch => right; right; left; exact ⟨ch, rest, rfl, _, rfl, dec _ _ (by simp [fetch, hd, hi, fetchSample])⟩

/-- A port word is a Cycle or a reserved code (R47, R48). -/
theorem decode_cycle_cases (w : BitVec 4) :
    (∃ c, decode (.cycle w) = .ok (classOf c)) ∨ (decode (.cycle w) = .error .reservedCode ∧ decodeDataValue (w.extractLsb' 0 3) = none) := by
  unfold decode decodeCycle
  simp only
  cases h : decodeDataValue (w.extractLsb' 0 3) with
  | none => right; simp
  | some d => left; exact ⟨_, rfl⟩

/-- The two decoders beside `Normalize` (R61, R69): a bad data token first, then a bad clock token, then the Cycle of both. -/
theorem record_words (a b : Byte) :
    (decode (.dataToken a) = .error .badDataToken ∧ normalizeRecord a b = .error .data) ∨
    ∃ i d, decode (.dataToken a) = .ok i ∧ (∀ s, exec i s = dataToken d s) ∧
      ((decode (.clockToken b) = .error .badClockToken ∧ normalizeRecord a b = .error .clock) ∨
        ∃ j c, decode (.clockToken b) = .ok j ∧ (∀ s, exec j s = clockToken c s) ∧
          normalizeRecord a b = .ok { clock := c, data := d }) := by
  have clock : (b = 0x30 ∨ b = 0x31) ∨ (decode (.clockToken b) = .error .badClockToken ∧ b ≠ 0x30 ∧ b ≠ 0x31) := by
    by_cases h0 : b = 0x30
    · exact .inl (.inl h0)
    by_cases h1 : b = 0x31
    · exact .inl (.inr h1)
    refine .inr ⟨?_, h0, h1⟩
    simp only [decode, decodeClockToken]
    split
    · rename_i h; exact absurd (BitVec.eq_of_toNat_eq h) h0
    · rename_i h; exact absurd (BitVec.eq_of_toNat_eq h) h1
    · rfl
  have good : ∀ (i : Instr) (d : DataValue), decode (.dataToken a) = .ok i → (∀ s, exec i s = dataToken d s) →
      (∀ c : Byte, normalizeRecord a c = if c = 0x30 then .ok ⟨false, d⟩ else if c = 0x31 then .ok ⟨true, d⟩ else .error .clock) →
      ∃ i d, decode (.dataToken a) = .ok i ∧ (∀ s, exec i s = dataToken d s) ∧
        ((decode (.clockToken b) = .error .badClockToken ∧ normalizeRecord a b = .error .clock) ∨
          ∃ j c, decode (.clockToken b) = .ok j ∧ (∀ s, exec j s = clockToken c s) ∧
            normalizeRecord a b = .ok { clock := c, data := d }) := by
    intro i d h1 h2 h3
    refine ⟨i, d, h1, h2, ?_⟩
    obtain (rfl | rfl) | ⟨h, h4, h5⟩ := clock
    · exact .inr ⟨.tokenClock0, false, rfl, fun _ => rfl, h3 _⟩
    · exact .inr ⟨.tokenClock1, true, rfl, fun _ => rfl, h3 _⟩
    · exact .inl ⟨h, by rw [h3, if_neg h4, if_neg h5]⟩
  by_cases h1 : a = 0x30
  · subst h1; exact .inr (good .tokenData0 (.bit false) rfl (fun _ => rfl) fun _ => rfl)
  by_cases h2 : a = 0x31
  · subst h2; exact .inr (good .tokenData1 (.bit true) rfl (fun _ => rfl) fun _ => rfl)
  by_cases h3 : a = 0x48
  · subst h3; exact .inr (good .tokenDataH (.nonBinary .forcedHigh) rfl (fun _ => rfl) fun _ => rfl)
  by_cases h4 : a = 0x4C
  · subst h4; exact .inr (good .tokenDataL (.nonBinary .forcedLow) rfl (fun _ => rfl) fun _ => rfl)
  by_cases h5 : a = 0x58
  · subst h5; exact .inr (good .tokenDataX (.nonBinary .dontCare) rfl (fun _ => rfl) fun _ => rfl)
  refine .inl ⟨?_, by simp only [normalizeRecord, if_neg h1, if_neg h2, if_neg h3, if_neg h4, if_neg h5]⟩
  simp only [decode, decodeDataToken]
  split
  · rename_i h; exact absurd (BitVec.eq_of_toNat_eq h) h1
  · rename_i h; exact absurd (BitVec.eq_of_toNat_eq h) h2
  · rename_i h; exact absurd (BitVec.eq_of_toNat_eq h) h3
  · rename_i h; exact absurd (BitVec.eq_of_toNat_eq h) h4
  · rename_i h; exact absurd (BitVec.eq_of_toNat_eq h) h5
  · rfl

/-- A whole record, with none begun: ignored by a Faulted block, else one Step of its Cycle, or `BadToken` with nothing else done. -/
theorem runRecord_cases (a b : Byte) {s : State} (hd : s.tokData = none) (hc : s.tokClock = none) :
    (∃ x, s.fault = some x ∧ runRecord a b s = .next s.quiet) ∨
    (s.fault = none ∧ ∃ c, normalizeRecord a b = .ok c ∧ runRecord a b s = decoderStep c s) ∨
    (s.fault = none ∧ ∃ w, normalizeRecord a b = .error w ∧ runRecord a b s = .next (raise (.badToken w) s)) := by
  have eta : ({ s with tokData := none, tokClock := none } : State) = s := by
    cases s; simp only at hd hc; rw [hd, hc]
  cases hf : s.fault with
  | some x =>
    refine .inl ⟨x, rfl, ?_⟩
    have q1 : ∀ d, dataToken d s = .next s.quiet := fun d => by simp [dataToken, hf]
    have q2 : ∀ c, clockToken c s.quiet = .next s.quiet := fun c => by simp [clockToken, hf, State.quiet]
    obtain ⟨h, -⟩ | ⟨i, d, h1, h2, ⟨h3, -⟩ | ⟨j, c, h3, h4, -⟩⟩ := record_words a b
    · simp [runRecord, h, rejectWord, badToken, hf]
    · simp only [runRecord, runWord, h1, h2, q1, h3, rejectWord, badToken, State.quiet_fault, hf]
      rfl
    · simp only [runRecord, runWord, h1, h2, q1, h3, h4, q2]
  | none =>
    have p : ∀ d, dataToken d s = .next { s with output := .none, tokData := some d } := fun d => dataToken_first d hf hc
    obtain ⟨h, hn⟩ | ⟨i, d, h1, h2, ⟨h3, hn⟩ | ⟨j, c, h3, h4, hn⟩⟩ := record_words a b
    · refine .inr (.inr ⟨rfl, .data, hn, ?_⟩)
      simp only [runRecord, h, rejectWord, badToken, hf]
      conv_rhs => rw [← eta, hf]
    · refine .inr (.inr ⟨rfl, .clock, hn, ?_⟩)
      simp only [runRecord, runWord, h1, h2, p, h3, rejectWord, badToken, hf]
      conv_rhs => rw [← eta]
      rfl
    · refine .inr (.inl ⟨rfl, _, hn, ?_⟩)
      simp only [runRecord, runWord, h1, h2, p, h3, h4]
      rw [clockToken_second c (s := { s with output := .none, tokData := some d }) hf rfl, ← decoderStep_output _ .none s]
      conv_rhs => rw [← eta]

end Sys2Proof.Machine
end

