-- ==== Sys2Proof/Tests/Slice0.lean ====
section
/-! SUPPORT. Tests: words and vectors of 95_test_vectors.md and 30_encoding.md, the well-formedness smoke test, and for each obligation
with hypotheses a state and operands that meet them. -/

namespace Sys2Proof.Tests

open Sys2Proof.Machine

/-! ## Helpers -/

/-- 46 bit entries, written as the spec writes a frame: index 0 leftmost. -/
def entries (n : Nat) : List DataValue :=
  (List.range 46).map fun i => .bit (n.testBit (45 - i))

/-- The data letters of W1, W2 and RD1 (95_test_vectors.md section 2). -/
def w1 : List DataValue := entries 0b1001010101000101100000000000000000000000000001
def w2 : List DataValue := entries 0b1001010101000000111100110101000101100010010001
def rd1 : List DataValue := entries 0b1011010101001111011101111101101101010111101110

def letterZ : DataValue := .nonBinary .highZ
def letterH : DataValue := .nonBinary .forcedHigh
def letterL : DataValue := .nonBinary .forcedLow
def letterX : DataValue := .nonBinary .dontCare

/-- RD2: `101101010HLX1` then 31 zeros, `Z`, `X`. -/
def rd2 : List DataValue :=
  ((((entries 0b1011010100001000000000000000000000000000000000).set 9 letterH).set 10 letterL).set 11 letterX).set 44 letterZ
    |>.set 45 letterX

/-- The Frame W1 decodes to (section 2). -/
def frameW1 : Frame :=
  { start := true, apndp := false, rnw := false, a2 := true, a3 := false, parity1 := true, stop := false, park := true, trn1 := false
    ack := (.bit true, .bit false, .bit false), trn2 := .bit false, wdata := 0x0000000D, parity2 := .bit true }

/-- The Frame RD1 decodes to (section 2). -/
def frameRD1 : Frame :=
  { frameW1 with rnw := true, wdata := 0xDEADBEEF }

/-- The Frame RD2 decodes to (section 2). -/
def frameRD2 : Frame :=
  { frameW1 with rnw := true, wdata := 0x00000001, ack := (letterH, letterL, letterX), trn2 := letterX, parity2 := letterZ }

/-- A state between Steps. -/
def st (e : Bit) (r : Nat) (b : List DataValue) : State :=
  { State.reset with executing := e, run := r, buf := b }

def ones (n : Nat) : List DataValue :=
  List.replicate n (.bit true)

/-- What a test looks at after a next state. -/
def seen (o : Host.Outcome State Fault Refusal) : Option (Bit × Nat × List DataValue × Output) :=
  match o with
  | .next s => some (s.executing, s.run, s.buf, s.output)
  | .fault _ => none
  | .refused _ => none

/-- The fault element, its code and the Output after a next state (the other elements are unspecified then, U4). -/
def faultSeen (o : Host.Outcome State Fault Refusal) : Option (Option FaultCause × BitVec 8 × Output) :=
  match o with
  | .next s => some (s.fault, s.faultCausePort, s.output)
  | .fault _ => none
  | .refused _ => none

/-- The record on the Normalizer after a next state. -/
def recordSeen (o : Host.Outcome State Fault Refusal) : Option (Option DataValue × Option Bit) :=
  match o with
  | .next s => some (s.tokData, s.tokClock)
  | .fault _ => none
  | .refused _ => none

/-- The instruction a word decodes to. -/
def got (e : Encoded) : Option Instr :=
  match decode e with
  | .ok i => some i
  | .error _ => none

/-! ## Well-formedness: the check refuses a frame under the other format -/

theorem test_write_with_rnw_one_is_ill_formed : (Instr.frameWrite frameRD1).wellFormed = false := by decide
theorem test_read_with_rnw_zero_is_ill_formed : (Instr.frameRead frameW1).wellFormed = false := by decide
theorem test_frames_under_own_format_are_well_formed :
    (Instr.frameWrite frameW1).wellFormed = true ∧ (Instr.frameRead frameRD1).wellFormed = true := by decide

/-! ## Decoding: a word for each constructor, written out from R44, R47, R51 and R52 -/

theorem test_decode_data_tokens :
    [0b00110000, 0b00110001, 0b01001000, 0b01001100, 0b01011000].map (fun c : Byte => got (.dataToken c)) =
      [some .tokenData0, some .tokenData1, some .tokenDataH, some .tokenDataL, some .tokenDataX] := by decide
theorem test_decode_clock_tokens :
    [0b00110000, 0b00110001].map (fun c : Byte => got (.clockToken c)) = [some .tokenClock0, some .tokenClock1] := by decide
/-- T8, T9: `Z` and lower-case `h` are no tokens; T10: `H` is no clock token. -/
theorem test_decode_other_characters :
    got (.dataToken 0x5A) = none ∧ got (.dataToken 0x68) = none ∧ got (.clockToken 0x48) = none := by decide
theorem test_decode_cycle_words :
    [0b0001, 0b1001, 0b0000, 0b1000].map (fun w : BitVec 4 => got (.cycle w)) =
      [some .cycL1, some .cycH1, some .cycL0, some .cycH0] := by decide
theorem test_decode_nonbinary_cycle_words :
    [0b0100, 0b0101, 0b0110, 0b0111].map (fun w : BitVec 4 => got (.cycle w)) =
        [some (.cycLN .highZ), some (.cycLN .forcedHigh), some (.cycLN .forcedLow), some (.cycLN .dontCare)] ∧
      [0b1100, 0b1101, 0b1110, 0b1111].map (fun w : BitVec 4 => got (.cycle w)) =
        [some (.cycHN .highZ), some (.cycHN .forcedHigh), some (.cycHN .forcedLow), some (.cycHN .dontCare)] := by decide
theorem test_decode_w1 : got (.frame w1) = some (.frameWrite frameW1) := by decide
theorem test_decode_rd1 : got (.frame rd1) = some (.frameRead frameRD1) := by decide
theorem test_decode_rd2 : got (.frame rd2) = some (.frameRead frameRD2) := by decide
theorem test_decode_w2 : got (.frame w2) = some (.frameWrite { frameW1 with wdata := 0x12345678 }) := by decide
theorem test_encode_w1_rd1 : encodeFrame frameW1 = w1 ∧ encodeFrame frameRD1 = rd1 := by decide

/-! ## Extraction and reversal: E and V vectors -/

theorem test_E2_E5 : extract ((w1.set 2 letterH).set 20 letterX) = .error 2 ∧ extract ((w1.set 5 letterL).set 20 letterX) = .error 5 := by
  decide
theorem test_E3 : got (.frame (w1.set 12 letterX)) = some (.frameWrite { frameW1 with trn2 := letterX }) ∧
    extract (rd1.set 12 letterX) = .error 12 := by decide
theorem test_E4 : got (.frame (rd1.set 44 letterL)) = some (.frameRead { frameRD1 with parity2 := letterL }) ∧
    extract (w1.set 44 letterL) = .error 44 := by decide
theorem test_V1_V2_V11 : rev32 (true :: List.replicate 31 false) = 0x00000001 ∧ rev32 (List.replicate 31 false ++ [true]) = 0x80000000 ∧
    rev32 (List.replicate 8 true ++ List.replicate 24 false) = 0x000000FF := by decide

/-! ## One Step: K vectors -/

theorem test_K1 : seen (exec .cycL1 (st false 3 [])) = some (true, 4, [.bit true], .none) := by decide
theorem test_K14 : seen (exec .cycL1 (st true 49 (entries 0b1010000000 |>.drop 36))) =
    some (true, 0, [.bit true], .event .resetEvent) := by decide
theorem test_K13 : seen (exec .cycH1 (st true 49 (ones 3))) = some (true, 0, [], .event .resetEvent) := by decide
theorem test_K20 : seen (exec .cycH1 (st true 5 (w1.take 45))) = some (true, 6, w1.take 45, .none) := by decide
theorem test_K6 : seen (exec .cycL0 (st true 7 [.bit true])) = some (true, 0, [.bit true, .bit false], .none) := by decide
theorem test_K18 : seen (exec .cycL0 (st true 0 (rd1.take 45))) = some (false, 0, [], .event (.frame frameRD1)) := by decide
theorem test_K8 : seen (exec .cycH0 (st true 7 [.bit true])) = some (true, 0, [.bit true], .none) := by decide
theorem test_K9 : seen (exec (.cycLN .forcedHigh) (st false 7 [])) = some (false, 0, [], .none) := by decide
theorem test_K19 : seen (exec (.cycLN .highZ) (st true 0 (w1.take 45))) =
    some (false, 0, [], .event (.frame { frameW1 with parity2 := letterZ })) := by decide
theorem test_K12 : seen (exec (.cycHN .forcedLow) (st true 7 [.bit true])) = some (true, 0, [.bit true], .none) := by decide
/-- K21: the 46th entry is also the 50th one. -/
theorem test_K21 : seen (exec .cycL1 (st true 49 (ones 45))) = some (true, 0, [.bit true], .event .resetEvent) := by decide
/-- E1: `fault_cause = 0x88`. -/
theorem test_E1 : faultSeen (exec .cycL1 (st true 0 ((w1.set 8 letterX).take 45))) =
    some (some (.unconvertible 8), 0x88, .fault (.unconvertible 8)) := by decide
theorem test_frame_write : seen (exec (.frameWrite frameW1) (st true 1 w1)) = some (false, 1, [], .event (.frame frameW1)) := by decide
theorem test_frame_read : seen (exec (.frameRead frameRD1) (st true 1 rd1)) = some (false, 1, [], .event (.frame frameRD1)) := by decide
/-- Section 2: the ports of the RD2 Frame. -/
theorem test_rd2_ports : ({ State.reset with output := .event (.frame frameRD2) } : State).ackPort = some 0b111110101 ∧
    ({ State.reset with output := .event (.frame frameRD2) } : State).parity2Port = some 0b100 := by decide

/-! ## Tokens: T vectors -/

theorem test_token_H : recordSeen (exec .tokenDataH State.reset) = some (some letterH, none) := by decide
theorem test_token_0 : recordSeen (exec .tokenData0 State.reset) = some (some (.bit false), none) := by decide
theorem test_token_1 : recordSeen (exec .tokenData1 State.reset) = some (some (.bit true), none) := by decide
theorem test_token_L : recordSeen (exec .tokenDataL State.reset) = some (some letterL, none) := by decide
theorem test_token_X : recordSeen (exec .tokenDataX State.reset) = some (some letterX, none) := by decide
/-- T2: the record (`1`, `0`) is the Cycle `1@0`, which arms. -/
theorem test_T2 : seen (exec .tokenClock0 { State.reset with tokData := some (.bit true) }) = some (true, 1, [.bit true], .none) := by decide
/-- T4: the record (`1`, `1`) is the Cycle `1@1`, which only counts. -/
theorem test_T4 : seen (exec .tokenClock1 { State.reset with tokData := some (.bit true) }) = some (false, 1, [], .none) := by decide
/-- T2, T9, T10 on the record ports: one step for both tokens. -/
theorem test_record_ports : seen (step { State.reset with input := [⟨false, .record 0x31 0x30⟩] }) = some (true, 1, [.bit true], .none) ∧
    faultSeen (step { State.reset with input := [⟨false, .record 0x68 0x30⟩] }) =
      some (some (.badToken .data), 0x40, .fault (.badToken .data)) ∧
    faultSeen (step { State.reset with input := [⟨false, .record 0x31 0x48⟩] }) =
      some (some (.badToken .clock), 0x41, .fault (.badToken .clock)) := by decide
/-- T8: `fault_cause = 0x40`. -/
theorem test_T8 : faultSeen (step { State.reset with input := [⟨false, .token 0x5A⟩] }) =
    some (some (.badToken .data), 0x40, .fault (.badToken .data)) := by decide
/-- T10: `fault_cause = 0x41`. -/
theorem test_T10 : faultSeen (step { State.reset with tokData := some (.bit true), input := [⟨false, .token 0x48⟩] }) =
    some (some (.badToken .clock), 0x41, .fault (.badToken .clock)) := by decide

/-! ## The opcode table's words at the step, and the text forms -/

theorem test_table_words : decodeTableWord 8 0x1 = some .cycL1 ∧ decodeTableWord 8 0xC = some (.cycHN .highZ) ∧
    decodeTableWord 8 0x30 = some .tokenData0 ∧ decodeTableWord 8 0x58 = some .tokenDataX ∧ decodeTableWord 8 0x2 = none := by decide
theorem test_table_word_runs : seen (step (State.reset.withFetchWord 8 0x1)) = some (true, 1, [.bit true], .none) := by decide
theorem test_table_token_runs : recordSeen (step (State.reset.withFetchWord 8 0x48)) = some (some letterH, none) := by decide
theorem test_table_frame_runs : seen (step (State.reset.withFetchWord 48 0b101)) =
    some (false, 0, [], .event (.frame ⟨true, false, true, false, false, false, false, false, false,
      (.bit false, .bit false, .bit false), .bit false, 0, .bit false⟩)) := by decide
/-- R58: in the group `1 H 0 0` the clock character is `1` and the data character `H`; with a `Z` the line is no record. -/
theorem test_group : recordOfGroup 0x31 0x48 0x30 0x30 = some (0x48, 0x31) ∧ recordOfGroup 0x31 0x48 0x30 0x5A = none := by decide

/-! ## A state and operands for each obligation with hypotheses -/

theorem inv_st {e : Bit} {r : Nat} {b : List DataValue} (hr : r ≤ 49) (hb : b.length ≤ 45) (he : e = false → b = []) :
    (st e r b).Inv :=
  ⟨fun _ => hr, fun _ => hb, fun _ h => he h, by simp [st, State.reset],
    decide_eq_true (by show b.length ≤ 46; omega), rfl⟩

theorem live_st {e : Bit} {r : Nat} {b : List DataValue} (hb : b.length ≤ 45) : (st e r b).live :=
  ⟨rfl, hb⟩

/-- EveryStepKeepsInvariant, OnlyReservedCodesStop: a state with the invariant at its bounds, and a step from it. -/
theorem witness_invariant : (st true 49 (ones 45)).Inv ∧ (seen (step (st true 49 (ones 45)))).isSome = true :=
  ⟨inv_st (by decide) (by decide) (by simp), by decide⟩
theorem witness_reserved_code : (∃ s : State, s.Inv ∧ s.frameDue = false ∧
    s.input = [⟨false, .cycle 0b0010⟩] ∧ decodeDataValue ((0b0010 : BitVec 4).extractLsb' 0 3) = none) :=
  ⟨{ st false 0 [] with input := [⟨false, .cycle 0b0010⟩] },
    ⟨fun _ => by decide, fun _ => by decide, fun _ _ => rfl, by simp [st, State.reset], rfl, rfl⟩, rfl, rfl, by decide⟩
/-- RstDiscardsHalfRecord: a half presented record stands. -/
theorem witness_half_record : ∃ s : State, s.tokData ≠ none ∧ s.frameDue = false ∧ s.input = [⟨true, .nothing⟩] :=
  ⟨{ State.reset with tokData := some letterH, input := [⟨true, .nothing⟩] }, by decide, rfl, rfl⟩
/-- RstInitialises, with a Faulted state; NoCycleNoStep, both clauses. -/
theorem witness_rst : ∃ s : State, s.fault ≠ none ∧ s.frameDue = false ∧ s.input = [⟨true, .cycle 0b0010⟩] :=
  ⟨{ State.reset with fault := some (.badToken .data), input := [⟨true, .cycle 0b0010⟩] }, by decide, rfl, rfl⟩
theorem witness_no_cycle : State.reset.frameDue = false ∧ State.reset.input = [] ∧
    ∃ s : State, s.frameDue = false ∧ s.input = [⟨false, .nothing⟩] :=
  ⟨rfl, rfl, { State.reset with input := [⟨false, .nothing⟩] }, rfl, rfl⟩
/-- FaultedBlockIgnoresInstructions, FaultLastsUntilInitialised: a Faulted state and a step from it, without and with `rst`. -/
theorem witness_faulted : ∃ s t : State, s.fault = some (.unconvertible 44) ∧ step s = .next t :=
  ⟨{ State.reset with fault := some (.unconvertible 44) }, _, rfl, rfl⟩
theorem witness_fault_cleared : ∃ s t : State, s.fault ≠ none ∧ step s = .next t ∧ t.fault = none :=
  ⟨{ State.reset with fault := some (.unconvertible 44), input := [⟨true, .nothing⟩] }, _, by decide, rfl, rfl⟩
/-- FaultsThatArise: from a state with the invariant, a write faults at 44 and a read at 12. -/
theorem witness_fault_44 : (st true 0 ((w1.set 44 letterL).take 45)).Inv ∧
    faultSeen (step { st true 0 ((w1.set 44 letterL).take 45) with input := [⟨false, .cycle 0b0001⟩] }) =
      some (some (.unconvertible 44), 0xAC, .fault (.unconvertible 44)) :=
  ⟨inv_st (by decide) (by decide) (by simp), by decide⟩
theorem witness_fault_12 : (st true 0 ((rd1.set 12 letterX).take 45)).Inv ∧
    faultSeen (step { st true 0 ((rd1.set 12 letterX).take 45) with input := [⟨false, .cycle 0b0000⟩] }) =
      some (some (.unconvertible 12), 0x8C, .fault (.unconvertible 12)) :=
  ⟨inv_st (by decide) (by decide) (by simp), by decide⟩
/-- AppendPastBufferStops. -/
theorem witness_append_past_buffer : (st true 48 (ones 46)).fault = none ∧ 46 ≤ (st true 48 (ones 46)).buf.length ∧
    (st true 48 (ones 46)).executing = true ∧ (st true 48 (ones 46)).run ≠ 49 := by decide
/-- CycL1Effect: below 50, at 50, and with the buffer filled by a frame that decodes and by one that does not. -/
theorem witness_cycL1 : (st true 48 (ones 45)).live ∧ (st true 49 (ones 45)).live ∧
    (w1.take 45 ++ [DataValue.bit true]).length = 46 ∧ extract (w1.take 45 ++ [.bit true]) = .ok frameW1 ∧
    extract ((w1.set 8 letterX).take 45 ++ [.bit true]) = .error 8 :=
  ⟨live_st (by decide), live_st (by decide), by decide, by decide, by decide⟩
/-- CycL1Effect, the arming clause. -/
theorem witness_arming : (st false 0 []).live ∧ seen (exec (classOf ⟨false, .bit true⟩) (st false 0 [])) =
    some (true, 1, [.bit true], .none) := ⟨live_st (by decide), by decide⟩
/-- CycH1Effect, CycH0Effect, CycHNEffect. -/
theorem witness_clock_high : (st false 48 []).live ∧ (st true 49 (ones 45)).live := ⟨live_st (by decide), live_st (by decide)⟩
/-- CycL0Effect, CycLNEffect: Idle, Armed, and the buffer filled. -/
theorem witness_low_zero : (st false 0 []).live ∧ (st true 0 (rd1.take 45)).live ∧
    extract (rd1.take 45 ++ [.bit false]) = .ok frameRD1 ∧ extract ((rd1.set 43 letterH).take 45 ++ [.bit false]) = .error 43 :=
  ⟨live_st (by decide), live_st (by decide), by decide, by decide⟩
theorem witness_low_nonbinary : (st true 0 (w1.take 45)).live ∧
    extract (w1.take 45 ++ [letterZ]) = .ok { frameW1 with parity2 := letterZ } ∧
    extract ((w1.set 0 letterH).take 45 ++ [letterZ]) = .error 0 := ⟨live_st (by decide), by decide, by decide⟩
/-- StepFollowsTransitionTable: Idle and Armed at both counts and both lengths, and Faulted. -/
theorem witness_table : (st false 48 []).live ∧ (st false 49 []).phase = .idle ∧ (st true 49 (ones 45)).phase = .armed ∧
    (st true 0 (ones 44)).live ∧ ({ State.reset with fault := some (.badToken .clock) } : State).phase = .faulted :=
  ⟨live_st (by decide), rfl, rfl, live_st (by decide), rfl⟩
/-- ResetDetectorStep, ResetEventDiscardsTheFrame. -/
theorem witness_reset : (st true 49 (ones 45)).live ∧ (st true 49 (ones 45)).run = 49 ∧
    seen (exec (classOf ⟨false, .bit true⟩) (st true 49 (ones 45))) = some (true, 0, [.bit true], .event .resetEvent) :=
  ⟨live_st (by decide), rfl, by decide⟩
/-- ExecutingHasTwoWriters: set by a record's clock token, by a data token that comes second, and cleared by a frame. -/
theorem witness_writers :
    seen (exec .tokenClock0 { State.reset with tokData := some (.bit true) }) = some (true, 1, [.bit true], .none) ∧
    seen (exec .tokenData1 { State.reset with tokClock := some false }) = some (true, 1, [.bit true], .none) ∧
    seen (exec .cycL1 (st true 0 (w1.take 45))) = some (false, 1, [], .event (.frame frameW1)) :=
  ⟨by decide, by decide, by decide⟩
/-- NonBinaryKindIsNeverTested. -/
theorem witness_kinds : (st true 3 [letterH]).live ∧ (st true 3 [letterX]).live ∧ blind letterL = blind letterZ ∧
    [letterH].map blind = [letterX].map blind ∧ (seen (exec (classOf ⟨false, letterL⟩) (st true 3 [letterH]))).isSome = true :=
  ⟨live_st (by decide), live_st (by decide), rfl, rfl, by decide⟩
/-- DataTokenEffects, ClockTokenEffects: the record empty and half full, either half. -/
theorem witness_tokens : State.reset.live ∧ State.reset.tokClock = none ∧ State.reset.tokData = none ∧
    ({ State.reset with tokData := some letterX } : State).live ∧ ({ State.reset with tokClock := some true } : State).live :=
  ⟨live_st (by decide), rfl, rfl, ⟨rfl, by decide⟩, ⟨rfl, by decide⟩⟩
/-- RecordIsNormalizeThenStep, TokensOneByOneMakeTheRecord, BadTokenRaises: a good record, and one with each token bad. -/
theorem witness_record : State.reset.live ∧ normalizeRecord 0x48 0x30 = .ok ⟨false, letterH⟩ ∧
    normalizeRecord 0x3F 0x32 = .error .data ∧ normalizeRecord 0x31 0x48 = .error .clock :=
  ⟨live_st (by decide), by decide, by decide, by decide⟩
/-- FortySixthEntryRunsTheFrame, FaultReportsLowestIndex. -/
theorem witness_46th : (st true 48 (w1.take 45)).live ∧ (st true 48 (w1.take 45)).buf.length = 45 ∧
    got (.frame (w1.take 45 ++ [.bit true])) = some (.frameWrite frameW1) := ⟨live_st (by decide), by decide, by decide⟩
/-- FrameDecodesExactlyWhenConvertible, the field statements and PartialBufferIsNotDecoded: a frame of each format, one with no format, and a
partial one. -/
theorem witness_frames : w1.length = 46 ∧ w1[2]? = some (.bit false) ∧ rd1[2]? = some (.bit true) ∧
    (w1.set 2 letterH)[2]? = some letterH ∧ (w1.take 45).length ≠ 46 := by decide
/-- The payload clauses at both ends: index 13 and 44 of a write, 12 and 43 of a read. -/
theorem witness_payload_ends : extract (w1.set 13 letterZ) = .error 13 ∧ extract (w1.set 44 letterL) = .error 44 ∧
    extract (rd1.set 12 letterX) = .error 12 ∧ extract (rd1.set 43 letterH) = .error 43 := by decide
/-- FrameDecodesExactlyWhenConvertible: legal and illegal buffers, and those completed by a Step. -/
theorem witness_illegal : illegalFrame (w1.set 44 letterL) ∧ illegalFrame (rd1.set 12 letterX) ∧ illegalFrame (w1.set 2 letterH) ∧
    (decode (.frame w1)).isOk = true ∧ (st true 48 (w1.take 45)).live :=
  ⟨⟨44, ⟨.forcedLow, by decide⟩, .inr ⟨false, by decide, .inr (by decide)⟩⟩,
    ⟨12, ⟨.dontCare, by decide⟩, .inr ⟨true, by decide, .inr (by decide)⟩⟩,
    ⟨2, ⟨.forcedHigh, by decide⟩, .inl (by decide)⟩, by decide, live_st (by decide)⟩
/-- The plain-bit clause at both ends. -/
theorem witness_plain_ends : extract (w1.set 0 letterX) = .error 0 ∧ extract (w1.set 8 letterX) = .error 8 := by decide
/-- RunOfOnesCountsResets, ResetEventsFollowDataAlone, FramesNeedTheirCycles: a state with the invariant one before the reset. -/
theorem witness_streams : (st false 49 []).Inv ∧ (st false 49 []).fault = none ∧
    ∃ t os, feed (ofCycles [⟨true, .bit true⟩]) (st false 49 []) = some (t, os) ∧ t.fault = none :=
  ⟨inv_st (by decide) (by decide) (by simp), rfl, _, _, rfl, rfl⟩
/-- SentFrameIsReceived and BackToBackFramesBothDecode: S8's stream, W1 then RD1 at clock 0. -/
theorem witness_sent : (st false 0 []).Inv ∧ frameW1.start = true ∧ frameRD1.start = true ∧
    lowData (w1.map fun d => (⟨false, d⟩ : Cycle)) = encodeFrame frameW1 ∧
    lowData (rd1.map fun d => (⟨false, d⟩ : Cycle)) = encodeFrame frameRD1 ∧
    (resetTrace 0 (((w1.map fun d => (⟨false, d⟩ : Cycle)) ++
      rd1.map fun d => (⟨false, d⟩ : Cycle)).map Cycle.data)).1.all (fun b => !b) = true :=
  ⟨inv_st (by decide) (by decide) (by simp), rfl, rfl, by decide, by decide, by decide⟩
/-- EventPorts, the last clause: a ResetEvent, a fault, nothing. -/
theorem witness_no_frame : [Output.event .resetEvent, .fault (.badToken .data), .none].map Output.isFrame = [false, false, false] ∧
    [Output.event .resetEvent, .fault (.badToken .data), .none].map (fun o => ({ State.reset with output := o } : State).ackPort) =
      [none, none, none] := by decide
/-- StepRunsTheDecodedInstruction: a Cycle, a token in either place, a record, and a completed buffer. -/
theorem witness_step : State.reset.frameDue = false ∧ got (.cycle 0b1001) = some .cycH1 ∧ got (.dataToken 0x31) = some .tokenData1 ∧
    got (.clockToken 0x31) = some .tokenClock1 ∧ (st true 0 w1).frameDue = true ∧
    recordSeen (exec .tokenData1 State.reset) = some (some (.bit true), none) := by decide

end Sys2Proof.Tests
end

section
/-! PROOFS. The words of the CYCLE and FRAME groups (30_encoding.md): the sixteen port words (R47, R48), and which completed
buffers are illegal (R55). -/

namespace Sys2Proof.Machine

/-! ## Port words of Cycles -/

@[simp] theorem decodeDataValue_encodeDataValue (d : DataValue) : decodeDataValue (encodeDataValue d) = some d := by
  cases d with
  | bit b => cases b <;> rfl
  | nonBinary k => cases k <;> rfl

@[simp] theorem encodeCycle_data (c : Cycle) : (encodeCycle c).extractLsb' 0 3 = encodeDataValue c.data :=
  BitVec.extractLsb'_append_eq_right

theorem encodeCycle_clock (c : Cycle) : (encodeCycle c).getLsbD 3 = c.clock :=
  BitVec.getLsbD_append.trans (by simp)

/-- A Cycle's port word decodes to the class of its clock and data (R47). -/
theorem decode_encodeCycle (c : Cycle) : decode (.cycle (encodeCycle c)) = .ok (classOf c) := by
  simp only [decode, decodeCycle, encodeCycle_data, decodeDataValue_encodeDataValue, encodeCycle_clock]

/-- A port word is rejected exactly for its data code (R48). -/
theorem decode_cycle_reserved_iff (w : BitVec 4) :
    decode (.cycle w) = .error .reservedCode ↔ decodeDataValue (w.extractLsb' 0 3) = none := by
  simp only [decode, decodeCycle]
  cases decodeDataValue (w.extractLsb' 0 3) <;> simp

/-- Settles O42: decoding undoes `encodeCycle`, and of the sixteen words four carry the data codes 010 and 011. -/
theorem portWordsOfCycles : Obligations.PortWordsOfCycles := by
  refine ⟨decode_encodeCycle, fun w => ?_⟩
  rw [decode_cycle_reserved_iff]
  revert w
  decide

/-! ## The entries `extract` converts -/

/-- Inside the buffer, an entry that is no bit is a NonBinary value. -/
theorem nonBinaryAt_iff_not_bit {buf : List DataValue} {i : Nat} (h : i < buf.length) :
    nonBinaryAt buf i ↔ ∀ b, buf[i]? ≠ some (.bit b) := by
  unfold nonBinaryAt
  rw [List.getElem?_eq_getElem h]
  cases buf[i] <;> simp

theorem not_nonBinaryAt_of_bit {buf : List DataValue} {i : Nat} {b : Bit} (h : buf[i]? = some (.bit b)) :
    ¬nonBinaryAt buf i := by
  simp [nonBinaryAt, h]

/-- Conversions that succeed met a bit at each of their indices. -/
theorem bit_of_toBits_ok {buf : List DataValue} {n i j : Nat} {bs : List Bit} (h : toBits buf i n = .ok bs)
    (hj : j < n) : buf[i + j]? = some (.bit (bs.getD j false)) := by
  obtain ⟨hl, hb⟩ := toBits_ok_iff.1 h
  have hlt : j < bs.length := by omega
  rw [hb j hj, List.getD_eq_getElem?_getD, List.getElem?_eq_getElem hlt]
  rfl

/-- Conversions fail exactly when a NonBinary value stands at one of their indices. -/
theorem toBits_fails_iff {buf : List DataValue} {n i : Nat} (h : i + n ≤ buf.length) :
    (∃ k, toBits buf i n = .error k) ↔ ∃ k, i ≤ k ∧ k < i + n ∧ nonBinaryAt buf k := by
  constructor
  · rintro ⟨k, hk⟩
    obtain ⟨hle, hlt, hne, -⟩ := toBits_error_iff.1 hk
    exact ⟨k, hle, hlt, (nonBinaryAt_iff_not_bit (by omega)).2 hne⟩
  · rintro ⟨k, hle, hlt, hnb⟩
    cases hr : toBits buf i n with
    | error m => exact ⟨m, rfl⟩
    | ok bs =>
      have hbit := bit_of_toBits_ok hr (j := k - i) (by omega)
      rw [show i + (k - i) = k by omega] at hbit
      exact absurd hnb (not_nonBinaryAt_of_bit hbit)

/-- The must-be-bit indices of a format are the plain bits and the payload of its layout (R51, R52). -/
theorem mustBeBit_iff_layout (rnw : Bit) (i : Nat) :
    mustBeBit rnw i ↔ i ≤ 8 ∨ ((layout rnw).base ≤ i ∧ i < (layout rnw).base + 32) := by
  cases rnw <;> simp [mustBeBit, layout] <;> omega

/-- Where the nine plain bits convert, a buffer is illegal exactly for its payload. -/
theorem illegalFrame_iff_payload {buf : List DataValue} {plain : List Bit} (hp : toBits buf 0 9 = .ok plain) :
    illegalFrame buf ↔ ∃ k, (layout (plain.getD 2 false)).base ≤ k ∧ k < (layout (plain.getD 2 false)).base + 32 ∧
      nonBinaryAt buf k := by
  have hbit : ∀ j, j ≤ 8 → buf[j]? = some (.bit (plain.getD j false)) := fun j hj => by
    simpa using bit_of_toBits_ok hp (j := j) (by omega)
  constructor
  · rintro ⟨k, hnb, hk⟩
    have h8 : ¬k ≤ 8 := fun hle => not_nonBinaryAt_of_bit (hbit k hle) hnb
    obtain hle | ⟨rnw, hrnw, hm⟩ := hk
    · exact absurd hle h8
    · obtain rfl : plain.getD 2 false = rnw := by simpa [hrnw] using (hbit 2 (by omega)).symm
      obtain ⟨hlo, hhi⟩ := ((mustBeBit_iff_layout _ k).1 hm).resolve_left h8
      exact ⟨k, hlo, hhi, hnb⟩
  · rintro ⟨k, hlo, hhi, hnb⟩
    exact ⟨k, hnb, .inr ⟨_, hbit 2 (by omega), (mustBeBit_iff_layout _ k).2 (.inr ⟨hlo, hhi⟩)⟩⟩

/-! ## Completed buffers -/

/-- Extraction of a completed buffer fails exactly when the buffer is illegal (R55). -/
theorem extract_fails_iff_illegalFrame {buf : List DataValue} (hl : buf.length = 46) :
    (∃ i, extract buf = .error i) ↔ illegalFrame buf := by
  cases hp : toBits buf 0 9 with
  | error m =>
    obtain ⟨k, -, hk, hnb⟩ := (toBits_fails_iff (i := 0) (n := 9) (by omega)).1 ⟨m, hp⟩
    exact iff_of_true ⟨m, extract_error_iff.2 (.inl hp)⟩ ⟨k, hnb, .inl (by omega)⟩
  | ok plain =>
    have hbase : (layout (plain.getD 2 false)).base + 32 ≤ buf.length := by
      cases plain.getD 2 false <;> simp [layout, hl]
    rw [illegalFrame_iff_payload hp, ← toBits_fails_iff hbase]
    simp [extract_error_iff, hp]

theorem extract_succeeds_iff_not_illegalFrame {buf : List DataValue} (hl : buf.length = 46) :
    (∃ f, extract buf = .ok f) ↔ ¬illegalFrame buf := by
  rw [← extract_fails_iff_illegalFrame hl]
  cases extract buf <;> simp

/-- The Frame's `rnw` is the entry at index 2. -/
theorem rnw_of_extract_ok {buf : List DataValue} {f : Frame} (h : extract buf = .ok f) :
    buf[2]? = some (.bit f.rnw) := by
  obtain ⟨plain, cap, hp, -, rfl⟩ := extract_ok h
  simpa [assemble] using bit_of_toBits_ok hp (j := 2) (by omega)

/-- A NonBinary `rnw` is rejected at itself or before, whatever the payload holds. -/
theorem extract_error_of_nonBinary_rnw {buf : List DataValue} (h : nonBinaryAt buf 2) :
    ∃ i, i ≤ 2 ∧ extract buf = .error i := by
  cases hp : toBits buf 0 9 with
  | error i =>
    refine ⟨i, ?_, extract_error_iff.2 (.inl hp)⟩
    obtain ⟨-, -, -, hbits⟩ := toBits_error_iff.1 hp
    by_contra hgt
    obtain ⟨b, hb⟩ := hbits 2 (by omega) (by omega)
    exact not_nonBinaryAt_of_bit hb h
  | ok plain => exact absurd h (not_nonBinaryAt_of_bit (bit_of_toBits_ok hp (j := 2) (by omega)))

theorem decode_frame_error_iff {buf : List DataValue} (hl : buf.length = 46) (i : Nat) :
    decode (.frame buf) = .error (.unconvertible i) ↔ extract buf = .error i := by
  simp only [decode, decodeFrame, frameLen, hl, ↓reduceIte]
  cases extract buf <;> simp

theorem decode_frame_of_extract_ok {buf : List DataValue} {f : Frame} (hl : buf.length = 46)
    (h : extract buf = .ok f) : decode (.frame buf) = .ok (if f.rnw then .frameRead f else .frameWrite f) := by
  simp only [decode, decodeFrame, frameLen, hl, ↓reduceIte, h]

/-! ## The Step of the 46th entry -/

/-- An Armed block appends the data of a clock-low Cycle, unless the Cycle is the 50th one (R75). -/
theorem collected_buf_of_armed {d : DataValue} {s : State} (he : s.executing = true)
    (h50 : ¬(d = .bit true ∧ s.run = 49)) : (collected ⟨false, d⟩ s).buf = s.buf ++ [d] := by
  simp [collected, armedBy, hitsFifty, he, h50]

/-- Sub-step 4 on a completed buffer puts a fault or a Frame on the Output, as `extract` answers (R76, R116). -/
theorem complete_output_iff {s : State} (hl : s.buf.length = 46) :
    ((∃ i, (complete s).output = .fault (.unconvertible i)) ↔ ∃ i, extract s.buf = .error i) ∧
    ((∃ f, (complete s).output = .event (.frame f)) ↔ ∃ f, extract s.buf = .ok f) := by
  obtain ⟨hne, -⟩ | ⟨f, -, hx, hc⟩ | ⟨i, -, hx, hc⟩ := complete_cases s
  · exact absurd hl hne
  · simp [hx, hc]
  · simp [hx, hc]

/-- Settles O29: `extract` fails exactly on the illegal buffers, and both the decoder and the completing Step answer as it does. -/
theorem frameDecodesExactlyWhenConvertible : Obligations.FrameDecodesExactlyWhenConvertible := by
  refine ⟨fun buf hl => ⟨?_, fun hlegal => ?_, fun hnb => ?_⟩, fun d s hs he hlen h50 => ?_⟩
  · simp only [decode_frame_error_iff hl, extract_fails_iff_illegalFrame hl]
  · obtain ⟨f, hf⟩ := (extract_succeeds_iff_not_illegalFrame hl).2 hlegal
    exact ⟨f, rnw_of_extract_ok hf, decode_frame_of_extract_ok hl hf⟩
  · simpa only [decode_frame_error_iff hl] using extract_error_of_nonBinary_rnw hnb
  · have hbuf := collected_buf_of_armed he h50
    have hl : (s.buf ++ [d]).length = 46 := by simp [hlen]
    obtain ⟨hfault, hframe⟩ := complete_output_iff (hbuf ▸ hl)
    rw [hbuf] at hfault hframe
    refine ⟨_, (exec_classOf _ s).trans (decoderStep_live _ hs), ?_, ?_⟩
    · rw [hfault, extract_fails_iff_illegalFrame hl]
    · rw [hframe, extract_succeeds_iff_not_illegalFrame hl]

end Sys2Proof.Machine
end

section
/-! PROOFS. The Step of the frame decoder (41_frame_decoder_fsm.md): each Cycle class (R78 to R83), the state machine as a table
(R77), and the Faulted block (R72). -/

namespace Sys2Proof.Machine

/-! ## A Step of a live block -/

theorem exec_classOf_live (c : Cycle) {s : State} (hs : s.live) :
    exec (classOf c) s = .next (complete (collected c s)) :=
  (exec_classOf c s).trans (decoderStep_live c hs)

/-- Sub-step 4 does nothing to a buffer that is not full. -/
theorem complete_of_short {s : State} (h : s.buf.length < 46) : complete s = s := by
  simp [complete, frameLen, h.ne]

theorem complete_of_extract_ok {s : State} {f : Frame} (hl : s.buf.length = 46) (hx : extract s.buf = .ok f) :
    complete s = emitFrame f s := by
  simp [complete, frameLen, hl, hx]

theorem complete_of_extract_error {s : State} {i : Nat} (hl : s.buf.length = 46) (hx : extract s.buf = .error i) :
    complete s = raise (.unconvertible i) s := by
  simp [complete, frameLen, hl, hx]

/-- An instruction that answers with sub-step 4 on `u` ends its Step from `u`. -/
theorem endsFrom_of_exec_eq_complete {i : Instr} {s u : State} (h : exec i s = .next (complete u)) : endsFrom i s u := by
  refine ⟨fun hl => ?_, fun f hl hx => ?_, fun j hl hx => ?_⟩
  · rw [h, complete_of_short hl]
  · rw [h, complete_of_extract_ok hl hx]
    rfl
  · rw [complete_of_extract_error hl hx] at h
    exact ⟨_, h, rfl, rfl, rfl, rfl, rfl⟩

/-- Every fault a Cycle raises is a listed one (R115). -/
theorem fault_listed_of_exec_classOf {c : Cycle} {s t : State} {x : FaultCause} (hs : s.live)
    (h : exec (classOf c) s = .next t) (hx : t.fault = some x) : x.listed := by
  obtain rfl : complete (collected c s) = t := by simpa [exec_classOf_live c hs] using h
  have hf : (collected c s).fault = none := hs.1
  obtain ⟨-, ht⟩ | ⟨f, -, -, ht⟩ | ⟨i, -, he, ht⟩ := complete_cases (collected c s)
  · simp [ht, hf] at hx
  · simp [ht, hf] at hx
  · obtain rfl : .unconvertible i = x := by simpa [ht] using hx
    exact extract_error_listed he

/-! ## Sub-steps 1 to 3, by clock level and data -/

/-- A clock-high Cycle appends nothing (R75). -/
theorem collected_buf_of_high {c : Cycle} (hc : c.clock = true) (s : State) :
    (collected c s).buf = if hitsFifty c s then [] else s.buf := by
  simp [collected, hc]

/-- A clock-high Cycle never completes a frame. -/
theorem exec_classOf_high {c : Cycle} (hc : c.clock = true) {s : State} (hs : s.live) :
    exec (classOf c) s = .next (collected c s) := by
  have hb := hs.2
  rw [exec_classOf_live c hs, complete_of_short]
  rw [collected_buf_of_high hc]
  split
  · simp
  · omega

/-- The Cycle of a line reset never completes a frame (R32). -/
theorem complete_collected_of_fifty {c : Cycle} {s : State} (h : hitsFifty c s) : complete (collected c s) = collected c s :=
  complete_of_short (Nat.lt_of_le_of_lt (collected_len_of_fifty h) (by decide))

/-- A clock-high Cycle that is no one zeroes `run` and does nothing else (R81, R83). -/
theorem collected_high_of_not_one {d : DataValue} (hd : d ≠ .bit true) (s : State) :
    collected ⟨true, d⟩ s = { s with run := 0, output := .none } := by
  simp [collected, armedBy, hitsFifty, hd]

/-- A clock-low Cycle that is no one does not arm an Idle block and is not appended there. -/
theorem collected_low_of_not_one_of_idle {d : DataValue} (hd : d ≠ .bit true) {s : State} (he : s.executing = false) :
    collected ⟨false, d⟩ s = { s with run := 0, output := .none } := by
  simp [collected, armedBy, hitsFifty, hd, he]

theorem collected_low_of_not_one_of_armed {d : DataValue} (hd : d ≠ .bit true) {s : State} (he : s.executing = true) :
    collected ⟨false, d⟩ s = { s with run := 0, buf := s.buf ++ [d], output := .none } := by
  simp [collected, armedBy, hitsFifty, hd, he]

/-- The Step of a clock-low Cycle that is no one (R80, R82). -/
theorem exec_low_of_not_one {d : DataValue} (hd : d ≠ .bit true) {s : State} (hs : s.live) :
    (s.executing = false → exec (classOf ⟨false, d⟩) s = .next { s with run := 0, output := .none }) ∧
    (s.executing = true → endsFrom (classOf ⟨false, d⟩) s { s with run := 0, buf := s.buf ++ [d], output := .none }) := by
  have h := exec_classOf_live ⟨false, d⟩ hs
  refine ⟨fun he => ?_, fun he => ?_⟩
  · rw [h, collected_low_of_not_one_of_idle hd he]
    exact congrArg _ (complete_of_short (Nat.lt_succ_of_le hs.2))
  · rw [collected_low_of_not_one_of_armed hd he] at h
    exact endsFrom_of_exec_eq_complete h

/-- The Step of a clock-high Cycle that is no one (R81, R83). -/
theorem exec_high_of_not_one {d : DataValue} (hd : d ≠ .bit true) {s : State} (hs : s.live) :
    exec (classOf ⟨true, d⟩) s = .next { s with run := 0, output := .none } := by
  rw [exec_classOf_high rfl hs, collected_high_of_not_one hd]

/-- Only `CYC_L1` arms (R73). -/
theorem classOf_eq_cycL1_of_arms {c : Cycle} {s : State} (he : s.executing = false) (h : (complete (collected c s)).executing = true)
    (hf : (complete (collected c s)).fault = none) : classOf c = .cycL1 := by
  obtain ⟨-, ht⟩ | ⟨f, -, -, ht⟩ | ⟨i, -, -, ht⟩ := complete_cases (collected c s)
  · obtain ⟨hclk, hd⟩ : c.clock = false ∧ c.data = .bit true := by
      rw [ht] at h
      simpa [collected, armedBy, he] using h
    simp [classOf, hclk, hd]
  · simp [ht] at h
  · simp [ht] at hf

/-! ## The port words of the NonBinary classes -/

theorem exists_kind_iff {p : NBKind → Prop} :
    (∃ k, p k) ↔ p .highZ ∨ p .forcedHigh ∨ p .forcedLow ∨ p .dontCare := by
  constructor
  · rintro ⟨_ | _ | _ | _, h⟩ <;> simp [h]
  · rintro (h | h | h | h) <;> exact ⟨_, h⟩

/-- The words of the NonBinary Cycles of a clock level are the four with that clock bit and data bit 2 set (R45, R47). -/
theorem decode_nonBinary_iff (clk : Bit) (w : BitVec 4) :
    (∃ k, decode (.cycle w) = .ok (classOf ⟨clk, .nonBinary k⟩)) ↔ w.extractLsb' 2 2 = BitVec.ofBool clk ++ 1#1 := by
  rw [exists_kind_iff]
  revert clk w
  decide

/-! ## The six Cycle classes -/

/-- Settles O12: below 50 and at 50 the state after sub-steps 1 to 3 is the one stated, and sub-step 4 can only fill a buffer that was
not cleared. -/
theorem cycL1Effect : Obligations.CycL1Effect := by
  refine ⟨rfl, fun s hs => ⟨fun hr => ?_, fun hr => ?_⟩, fun c s t hs he ht h1 hf => ?_⟩
  · refine endsFrom_of_exec_eq_complete ((exec_classOf_live ⟨false, .bit true⟩ hs).trans ?_)
    simp [collected, armedBy, hitsFifty, hr]
  · refine (exec_classOf_live ⟨false, .bit true⟩ hs).trans ?_
    rw [complete_collected_of_fifty ⟨rfl, hr⟩]
    simp [collected, hr]
  · obtain rfl : complete (collected c s) = t := by simpa [exec_classOf_live c hs] using ht
    exact classOf_eq_cycL1_of_arms he h1 hf

/-- Settles O13: a clock-high Step is sub-steps 1 to 3 alone. -/
theorem cycH1Effect : Obligations.CycH1Effect := by
  refine ⟨rfl, fun s hs => ?_⟩
  have h : exec .cycH1 s = .next (collected ⟨true, .bit true⟩ s) := exec_classOf_high (c := ⟨true, .bit true⟩) rfl hs
  refine ⟨fun hr => ?_, fun hr => ?_⟩
  · simp [h, collected, hr]
  · simp [h, collected, hr]

/-- Settles O14: a clock-low Cycle that is no one. -/
theorem cycL0Effect : Obligations.CycL0Effect :=
  ⟨rfl, fun _ hs => exec_low_of_not_one (d := .bit false) (by decide) hs⟩

/-- Settles O15: a clock-high Cycle that is no one. -/
theorem cycH0Effect : Obligations.CycH0Effect :=
  ⟨rfl, fun _ hs => exec_high_of_not_one (d := .bit false) (by decide) hs⟩

/-- Settles O16: a clock-low Cycle that is no one; the cause 45 is not a listed one. -/
theorem cycLNEffect : Obligations.CycLNEffect := by
  refine ⟨decode_nonBinary_iff false, fun k s hs => ?_⟩
  obtain ⟨hidle, harmed⟩ := exec_low_of_not_one (d := .nonBinary k) nofun hs
  refine ⟨hidle, harmed, fun t ht h45 => ?_⟩
  have hlisted : 45 ≤ 8 ∨ 12 ≤ 45 ∧ 45 ≤ 44 :=
    fault_listed_of_exec_classOf (c := ⟨false, .nonBinary k⟩) hs ht h45
  omega

/-- Settles O17: a clock-high Cycle that is no one. -/
theorem cycHNEffect : Obligations.CycHNEffect :=
  ⟨decode_nonBinary_iff true, fun k _ hs => exec_high_of_not_one (d := .nonBinary k) nofun hs⟩

/-! ## The state machine as a table (R77) -/

theorem phase_eq_idle_iff {s : State} : s.phase = .idle ↔ s.fault = none ∧ s.executing = false := by
  unfold State.phase
  cases s.fault <;> cases s.executing <;> simp

theorem phase_eq_armed_iff {s : State} : s.phase = .armed ↔ s.fault = none ∧ s.executing = true := by
  unfold State.phase
  cases s.fault <;> cases s.executing <;> simp

theorem phase_eq_faulted_iff {s : State} : s.phase = .faulted ↔ ∃ c, s.fault = some c := by
  unfold State.phase
  cases s.fault <;> cases s.executing <;> simp

/-- Where the phase stands after sub-steps 1 to 3. -/
theorem phase_collected (c : Cycle) {s : State} (hf : s.fault = none) :
    (collected c s).phase = if armedBy c s then .armed else .idle := by
  simp [State.phase, collected, hf]

/-- A Step from an empty buffer completes no frame. -/
theorem complete_collected_of_empty {c : Cycle} {s : State} (hb : s.buf = []) :
    complete (collected c s) = collected c s := by
  refine complete_of_short (Nat.lt_of_le_of_lt (m := 1) ?_ (by decide))
  simp only [collected, hb, ite_self, List.nil_append]
  split <;> simp

/-- Settles O18: the table's rows are those of sub-steps 1 to 3, and sub-step 4 matters only for the 46th entry of an Armed block. -/
theorem stepFollowsTransitionTable : Obligations.StepFollowsTransitionTable := by
  refine ⟨fun c s hs hempty => ⟨_, exec_classOf_live c hs, fun hidle => ?_, fun harmed => ?_⟩, fun c s hfaulted => ?_⟩
  · obtain ⟨hf, he⟩ := phase_eq_idle_iff.1 hidle
    have hb := hempty he
    rw [complete_collected_of_empty hb, phase_collected c hf]
    refine ⟨fun hc hd hr => ?_, fun hc hd hr => ?_, fun hc hd hr => ?_, ?_⟩
    · simp [collected, hb, hc, hd, hr]
    · simp [collected, hc, hd, hr]
    · simp [collected, he, hc, hd, hr]
    · rintro (⟨hc, hd, hr⟩ | hd)
      · simp [collected, he, hb, hc, hd, hr]
      · simp [collected, he, hb, hd]
  · obtain ⟨hf, he⟩ := phase_eq_armed_iff.1 harmed
    have hb := hs.2
    have hlow : c.clock = false → ¬hitsFifty c s → (collected c s).buf = s.buf ++ [c.data] := by
      obtain ⟨clk, d⟩ := c
      rintro rfl h50
      exact collected_buf_of_armed he h50
    have hphase : (collected c s).phase = .armed := by simp [phase_collected c hf, he]
    refine ⟨fun h50 => ?_, fun h50 => ⟨fun hc => ?_, fun hc hlt => ?_, fun hc hlen => ⟨fun f hx => ?_, fun i hx => ?_⟩⟩⟩
    · rw [complete_collected_of_fifty h50]
      refine ⟨if_pos h50, hphase, ?_⟩
      cases hc : c.clock <;> simp [collected, he, hc, h50]
    · have hbuf : (collected c s).buf = s.buf := by rw [collected_buf_of_high hc, if_neg h50]
      rw [complete_of_short (by rw [hbuf]; omega)]
      exact ⟨if_neg h50, hphase, hbuf⟩
    · have hbuf := hlow hc h50
      rw [complete_of_short (by simp [hbuf]; omega)]
      exact ⟨if_neg h50, hphase, hbuf⟩
    · have hbuf := hlow hc h50
      rw [complete_of_extract_ok (by simp [hbuf, hlen]) (hbuf ▸ hx)]
      exact ⟨rfl, phase_eq_idle_iff.2 ⟨hf, rfl⟩, rfl⟩
    · have hbuf := hlow hc h50
      rw [complete_of_extract_error (by simp [hbuf, hlen]) (hbuf ▸ hx)]
      exact ⟨rfl, rfl⟩
  · obtain ⟨x, hx⟩ := phase_eq_faulted_iff.1 hfaulted
    exact ⟨_, (exec_classOf c s).trans (decoderStep_faulted c hx), rfl, hfaulted⟩

/-! ## The Faulted block (R72) -/

theorem dataToken_faulted (d : DataValue) {s : State} {x : FaultCause} (h : s.fault = some x) :
    dataToken d s = .next s.quiet := by
  simp [dataToken, h]

theorem clockToken_faulted (c : Bit) {s : State} {x : FaultCause} (h : s.fault = some x) :
    clockToken c s = .next s.quiet := by
  simp [clockToken, h]

theorem decodedFrame_faulted (f : Frame) {s : State} {x : FaultCause} (h : s.fault = some x) :
    decodedFrame f s = .next s.quiet := by
  simp [decodedFrame, h]

/-- A Faulted block ignores every instruction. -/
theorem exec_faulted (i : Instr) {s : State} {x : FaultCause} (h : s.fault = some x) : exec i s = .next s.quiet := by
  cases i with
  | tokenData0 | tokenData1 | tokenDataH | tokenDataL | tokenDataX => exact dataToken_faulted _ h
  | tokenClock0 | tokenClock1 => exact clockToken_faulted _ h
  | cycL1 | cycL0 | cycLN => exact decoderStep_faulted ⟨false, _⟩ h
  | cycH1 | cycH0 | cycHN => exact decoderStep_faulted ⟨true, _⟩ h
  | frameWrite f | frameRead f => exact decodedFrame_faulted f h

/-- The decoder finds an unconvertible index in frames only (R55). -/
theorem ne_unconvertible_of_decode_error {e : Encoded} {r : Reject} (he : ∀ buf, e ≠ .frame buf) (h : decode e = .error r)
    (i : Nat) : r ≠ .unconvertible i := by
  rintro rfl
  cases e with
  | dataToken ch =>
    simp only [decode, decodeDataToken] at h
    split at h <;> cases h
  | clockToken ch =>
    simp only [decode, decodeClockToken] at h
    split at h <;> cases h
  | cycle w =>
    simp only [decode, decodeCycle] at h
    split at h <;> cases h
  | frame buf => exact he buf rfl

/-- A Faulted block ignores what is rejected at its ports, but for a reserved code, which is refused. -/
theorem rejectWord_faulted {r : Reject} {s t : State} {x : FaultCause} (hf : s.fault = some x)
    (hr : ∀ i, r ≠ .unconvertible i) (h : rejectWord r s = .next t) : t = s.quiet := by
  cases r with
  | badDataToken | badClockToken => simpa [rejectWord, badToken, hf] using h.symm
  | reservedCode => cases h
  | unconvertible i => exact absurd rfl (hr i)
  | partialFrame => cases h; rfl

/-- A word at the ports of a Faulted block, whether it decodes or not, changes nothing where the step goes on. -/
theorem portWord_faulted {e : Encoded} {s t : State} {x : FaultCause} {o : Host.Outcome State Fault Refusal} (hf : s.fault = some x)
    (he : ∀ buf, e ≠ .frame buf)
    (ho : (∃ i, decode e = .ok i ∧ o = exec i s) ∨ ∃ r, decode e = .error r ∧ o = rejectWord r s)
    (h : o = .next t) : t = s.quiet := by
  obtain ⟨i, -, rfl⟩ | ⟨r, hr, rfl⟩ := ho
  · cases (exec_faulted i hf).symm.trans h
    rfl
  · exact rejectWord_faulted hf (ne_unconvertible_of_decode_error he hr) h

/-- What a step of a Faulted block does (R72, R129): stream initialisation clears the fault, anything else that is not refused leaves
the decoder's four elements and puts nothing on the Output. -/
theorem step_faulted {s t : State} {x : FaultCause} (hf : s.fault = some x) (h : step s = .next t) :
    (t.fault = none ∧ ∃ p rest, s.input = { rst := true, present := p } :: rest) ∨
    (t.fault = some x ∧ t.executing = s.executing ∧ t.run = s.run ∧ t.buf = s.buf ∧ t.output = .none) := by
  have hd : s.frameDue = false := by simp [State.frameDue, hf]
  obtain ⟨-, hs⟩ | ⟨p, rest, hin, hs⟩ | ⟨rest, -, hs⟩ | ⟨w, rest, -, hw⟩ | ⟨ch, rest, -, e, he, hw⟩ | ⟨a, b, rest, -, hs⟩ :=
    step_cases s hd
  · cases hs.symm.trans h
    exact .inr ⟨hf, rfl, rfl, rfl, rfl⟩
  · cases hs.symm.trans h
    exact .inl ⟨rfl, p, rest, hin⟩
  · cases hs.symm.trans h
    exact .inr ⟨hf, rfl, rfl, rfl, rfl⟩
  · obtain rfl := portWord_faulted (s := { s with input := rest }) hf (by simp) hw h
    exact .inr ⟨hf, rfl, rfl, rfl, rfl⟩
  · have hport : ∀ buf, e ≠ .frame buf := fun buf => by rw [he]; split <;> exact nofun
    obtain rfl := portWord_faulted (s := { s with input := rest }) hf hport hw h
    exact .inr ⟨hf, rfl, rfl, rfl, rfl⟩
  · obtain ⟨y, -, hr⟩ | ⟨hn, -⟩ | ⟨hn, -⟩ :=
      runRecord_cases a b (s := { s with input := rest, tokData := none, tokClock := none }) rfl rfl
    · cases (hs.trans hr).symm.trans h
      exact .inr ⟨hf, rfl, rfl, rfl, rfl⟩
    · cases hf.symm.trans hn
    · cases hf.symm.trans hn

theorem onlyRst_clears_fault : onlyRstClearsFault := by
  intro s t hs h ht
  obtain ⟨x, hf⟩ := Option.ne_none_iff_exists'.1 hs
  obtain ⟨-, hrst⟩ | ⟨hx, -⟩ := step_faulted hf h
  · exact hrst
  · cases ht.symm.trans hx

/-- Settles O7: no instruction has an effect on a Faulted block, and of the port samples only `rst` clears the fault. -/
theorem faultedBlockIgnoresInstructions : Obligations.FaultedBlockIgnoresInstructions :=
  ⟨fun i _ _ hf => exec_faulted i hf, onlyRst_clears_fault⟩

end Sys2Proof.Machine
end

section
/-! PROOFS. The reset detector (42_reset_detector.md): the counter and its ResetEvent (R84), and what the 50th one discards (R85). -/

namespace Sys2Proof.Machine

/-! ## What sub-step 4 leaves of the detector -/

/-- Sub-step 4 emits no ResetEvent of its own. -/
theorem output_reset_of_complete {s : State} (h : (complete s).output = .event .resetEvent) :
    s.output = .event .resetEvent := by
  obtain ⟨-, ht⟩ | ⟨f, -, -, ht⟩ | ⟨i, -, -, ht⟩ := complete_cases s
  · rwa [ht] at h
  · simp [ht] at h
  · simp [ht] at h

/-- A frame completion does not write `run`; only a fault makes it unspecified (R27, R22). -/
theorem complete_run_of_no_fault {s : State} (h : (complete s).fault = none) : (complete s).run = s.run := by
  obtain ⟨-, ht⟩ | ⟨f, -, -, ht⟩ | ⟨i, -, -, ht⟩ := complete_cases s
  · rw [ht]
  · rw [ht, emitFrame_run]
  · simp [ht] at h

/-- Sub-steps 1 to 3 emit a ResetEvent exactly on the 50th one. -/
theorem collected_output_reset_iff (c : Cycle) (s : State) :
    (collected c s).output = .event .resetEvent ↔ hitsFifty c s := by
  by_cases h : hitsFifty c s
  · exact iff_of_true (if_pos h) h
  · exact iff_of_false (by simp only [collected, if_neg h]; exact nofun) h

/-- The Cycle of a line reset is done after sub-steps 1 to 3. -/
theorem exec_classOf_of_fifty {c : Cycle} {s : State} (hs : s.live) (h : hitsFifty c s) :
    exec (classOf c) s = .next (collected c s) := by
  rw [exec_classOf_live c hs, complete_collected_of_fifty h]

/-! ## The detector's obligations -/

/-- Settles O19: sub-step 4 neither adds a ResetEvent nor writes `run`, and the Cycle of a ResetEvent completes no frame that would
replace it on the Output. -/
theorem resetDetectorStep : Obligations.ResetDetectorStep := by
  intro c s t hs h
  obtain rfl : complete (collected c s) = t := by simpa [exec_classOf_live c hs] using h
  refine ⟨⟨fun hout => ?_, fun h50 => ?_⟩, complete_run_of_no_fault⟩
  · exact (collected_output_reset_iff c s).1 (output_reset_of_complete hout)
  · rw [complete_collected_of_fifty h50]
    exact (collected_output_reset_iff c s).2 h50

/-- Settles O20: the Step ends after sub-steps 1 to 3, whose append meets the emptied buffer. -/
theorem resetEventDiscardsTheFrame : Obligations.ResetEventDiscardsTheFrame := by
  intro c s hs hd hr
  have h50 : hitsFifty c s := ⟨hd, hr⟩
  have hbuf : (collected c s).buf = if c.clock then [] else [.bit true] := by
    cases hc : c.clock <;> simp [collected, h50, hc]
  have hexec : (collected c s).executing = (s.executing || !c.clock) := by
    simp [collected, armedBy, hd]
  have hrun : (collected c s).run = 0 := by simp [collected, hd, hr]
  exact ⟨_, exec_classOf_of_fifty hs h50, (collected_output_reset_iff c s).2 h50, hs.1, hrun, hexec, hbuf, rfl, rfl, rfl⟩

end Sys2Proof.Machine
end

section
/-! PROOFS. The field extractor (43_field_extractor.md): `ToBit` (R91), the fields at indices 0 to 11 (R93 to R102), and the two
layouts with the faults of their payloads (R103 to R108). -/

namespace Sys2Proof.Machine

/-! ## Conversion up to the lowest NonBinary entry -/

/-- No NonBinary kind is coerced (R91). -/
theorem not_bit_of_nonBinaryAt {buf : List DataValue} {i : Nat} (h : nonBinaryAt buf i) (b : Bit) :
    buf[i]? ≠ some (.bit b) :=
  fun hb => not_nonBinaryAt_of_bit hb h

theorem lt_length_of_nonBinaryAt {buf : List DataValue} {i : Nat} (h : nonBinaryAt buf i) : i < buf.length := by
  obtain ⟨k, hk⟩ := h
  exact (List.getElem?_eq_some_iff.1 hk).1

theorem bit_of_not_nonBinaryAt {buf : List DataValue} {i : Nat} (hi : i < buf.length) (h : ¬nonBinaryAt buf i) :
    ∃ b, buf[i]? = some (.bit b) := by
  simpa only [nonBinaryAt_iff_not_bit hi, not_forall, not_not] using h

/-- Conversions report the lowest NonBinary entry in their range (R120). -/
theorem toBits_error_of_lowest {buf : List DataValue} {i n k : Nat} (hik : i ≤ k) (hkn : k < i + n)
    (hnb : nonBinaryAt buf k) (hlow : ∀ j, i ≤ j → j < k → ¬nonBinaryAt buf j) : toBits buf i n = .error k := by
  have hk := lt_length_of_nonBinaryAt hnb
  exact toBits_error_iff.2 ⟨hik, hkn, not_bit_of_nonBinaryAt hnb, fun j hij hjk =>
    bit_of_not_nonBinaryAt (hjk.trans hk) (hlow j hij hjk)⟩

/-- The nine plain bits convert where none of them is NonBinary. -/
theorem plain_ok_of_no_nonBinary {buf : List DataValue} (hl : buf.length = 46) (h : ∀ j, j ≤ 8 → ¬nonBinaryAt buf j) :
    ∃ plain, toBits buf 0 9 = .ok plain := by
  cases hp : toBits buf 0 9 with
  | ok plain => exact ⟨plain, rfl⟩
  | error m =>
    obtain ⟨k, -, hk, hnb⟩ := (toBits_fails_iff (i := 0) (n := 9) (by omega)).1 ⟨m, hp⟩
    exact absurd hnb (h k (by omega))

/-! ## The index a rejection reports (R120) -/

theorem decode_error_of_lowest_plain {buf : List DataValue} {i : Nat} (hl : buf.length = 46) (hi : i ≤ 8)
    (hnb : nonBinaryAt buf i) (hlow : ∀ j, j < i → ¬nonBinaryAt buf j) :
    decode (.frame buf) = .error (.unconvertible i) := by
  rw [decode_frame_error_iff hl, extract_error_iff]
  exact .inl (toBits_error_of_lowest (Nat.zero_le i) (by omega) hnb fun j _ => hlow j)

/-- Where the plain bits convert, the lowest NonBinary entry of the payload that `rnw` selects is the one reported. -/
theorem decode_error_of_lowest_payload {buf : List DataValue} {rnw : Bit} {i : Nat} (hl : buf.length = 46)
    (hrnw : buf[2]? = some (.bit rnw)) (hplain : ∀ j, j ≤ 8 → ¬nonBinaryAt buf j) (hi : i < 32)
    (hnb : nonBinaryAt buf ((layout rnw).base + i)) (hlow : ∀ j, j < i → ¬nonBinaryAt buf ((layout rnw).base + j)) :
    decode (.frame buf) = .error (.unconvertible ((layout rnw).base + i)) := by
  obtain ⟨plain, hp⟩ := plain_ok_of_no_nonBinary hl hplain
  obtain rfl : plain.getD 2 false = rnw := by
    simpa [hrnw] using (bit_of_toBits_ok hp (j := 2) (by omega)).symm
  rw [decode_frame_error_iff hl, extract_error_iff]
  refine .inr ⟨plain, hp, toBits_error_of_lowest (by omega) (by omega) hnb fun j hle hlt => ?_⟩
  obtain ⟨m, rfl⟩ := Nat.exists_eq_add_of_le hle
  exact hlow m (by omega)

/-! ## The fields of an extracted Frame -/

/-- `Rev32` puts the bit captured `i`-th at position `i` (R111). -/
theorem rev32_getLsbD (cap : List Bit) {i : Nat} (hi : i < 32) : (rev32 cap).getLsbD i = cap.getD i false := by
  rw [rev32, BitVec.getLsbD_ofNat, ofDigits_reverse_testBit, decide_eq_true hi, Bool.true_and]

/-- The nine plain bits of the Frame are the entries at indices 0 to 8 (R93 to R101). -/
theorem plain_fields_of_extract_ok {buf : List DataValue} {f : Frame} (h : extract buf = .ok f) :
    buf[0]? = some (.bit f.start) ∧ buf[1]? = some (.bit f.apndp) ∧ buf[2]? = some (.bit f.rnw) ∧
    buf[3]? = some (.bit f.a2) ∧ buf[4]? = some (.bit f.a3) ∧ buf[5]? = some (.bit f.parity1) ∧
    buf[6]? = some (.bit f.stop) ∧ buf[7]? = some (.bit f.park) ∧ buf[8]? = some (.bit f.trn1) := by
  obtain ⟨plain, cap, hp, -, rfl⟩ := extract_ok h
  have hbit : ∀ j, j < 9 → buf[j]? = some (.bit (plain.getD j false)) := fun j hj => by
    simpa using bit_of_toBits_ok hp hj
  exact ⟨hbit 0 (by decide), hbit 1 (by decide), hbit 2 (by decide), hbit 3 (by decide), hbit 4 (by decide),
    hbit 5 (by decide), hbit 6 (by decide), hbit 7 (by decide), hbit 8 (by decide)⟩

/-- `ack` is the entries at indices 9 to 11, verbatim (R102). -/
theorem ack_of_extract_ok {buf : List DataValue} {f : Frame} (hl : buf.length = 46) (h : extract buf = .ok f) :
    buf[9]? = some f.ack.1 ∧ buf[10]? = some f.ack.2.1 ∧ buf[11]? = some f.ack.2.2 := by
  obtain ⟨plain, cap, -, -, rfl⟩ := extract_ok h
  exact ⟨verbatim_of_lt (by omega), verbatim_of_lt (by omega), verbatim_of_lt (by omega)⟩

/-- The fields whose place depends on the format stand where the layout of the Frame's `rnw` puts them (R103 to R108). -/
theorem layout_fields_of_extract_ok {buf : List DataValue} {f : Frame} (hl : buf.length = 46) (h : extract buf = .ok f) :
    buf[(layout f.rnw).trn2]? = some f.trn2 ∧ buf[(layout f.rnw).parity2]? = some f.parity2 ∧
      ∀ i, i < 32 → buf[(layout f.rnw).base + i]? = some (.bit (f.wdata.getLsbD i)) := by
  obtain ⟨plain, cap, -, hc, rfl⟩ := extract_ok h
  have hlt : ∀ rnw, (layout rnw).trn2 < buf.length ∧ (layout rnw).parity2 < buf.length := by
    rw [hl]
    decide
  obtain ⟨htrn2, hparity2⟩ := hlt (plain.getD 2 false)
  refine ⟨verbatim_of_lt htrn2, verbatim_of_lt hparity2, fun i hi => ?_⟩
  rw [show (assemble buf plain cap _).wdata = rev32 cap from rfl, rev32_getLsbD cap hi]
  exact bit_of_toBits_ok hc hi

/-! ## The decoded formats -/

/-- The format and the Frame can be read off a frame instruction. -/
theorem frame_format_eq_iff {f g : Frame} {p q : Bit} :
    (if p then Instr.frameRead f else .frameWrite f) = (if q then .frameRead g else .frameWrite g) ↔ p = q ∧ f = g := by
  cases p <;> cases q <;> simp

/-- A decoded frame is the extracted Frame of a full buffer, in the format its `rnw` names (R49). -/
theorem extract_of_decode_frame_ok {buf : List DataValue} {f : Frame} {rnw : Bit}
    (h : decode (.frame buf) = .ok (if rnw then .frameRead f else .frameWrite f)) :
    buf.length = 46 ∧ extract buf = .ok f ∧ f.rnw = rnw := by
  by_cases hl : buf.length = 46
  · cases hx : extract buf with
    | error i =>
      rw [(decode_frame_error_iff hl i).2 hx] at h
      cases h
    | ok g =>
      rw [decode_frame_of_extract_ok hl hx] at h
      obtain ⟨hr, rfl⟩ := frame_format_eq_iff.1 (Except.ok.inj h)
      exact ⟨hl, rfl, hr⟩
  · simp [decode, decodeFrame, frameLen, hl] at h

theorem layout_fields_of_decode_frame_ok {buf : List DataValue} {f : Frame} {rnw : Bit}
    (h : decode (.frame buf) = .ok (if rnw then .frameRead f else .frameWrite f)) :
    buf.length = 46 ∧ f.rnw = rnw ∧ buf[(layout rnw).trn2]? = some f.trn2 ∧ buf[(layout rnw).parity2]? = some f.parity2 ∧
      ∀ i, i < 32 → buf[(layout rnw).base + i]? = some (.bit (f.wdata.getLsbD i)) := by
  obtain ⟨hl, hx, rfl⟩ := extract_of_decode_frame_ok h
  exact ⟨hl, rfl, layout_fields_of_extract_ok hl hx⟩

/-! ## The extractor's obligations -/

/-- Settles O32: either format carries the extracted Frame, whose plain bits are converted first and whose `ack` is verbatim. -/
theorem fieldsAtIndicesZeroToEleven : Obligations.FieldsAtIndicesZeroToEleven := by
  have hwrite {buf f} (h : decode (.frame buf) = .ok (.frameWrite f)) := extract_of_decode_frame_ok (rnw := false) h
  have hread {buf f} (h : decode (.frame buf) = .ok (.frameRead f)) := extract_of_decode_frame_ok (rnw := true) h
  refine ⟨fun buf f h => ?_, fun buf f => ⟨fun h => (hwrite h).2.2, fun h => (hread h).2.2⟩, fun buf i => decode_error_of_lowest_plain⟩
  obtain ⟨hl, hx⟩ : buf.length = 46 ∧ extract buf = .ok f :=
    h.elim (fun h => (hwrite h).imp_right And.left) (fun h => (hread h).imp_right And.left)
  simpa only [and_assoc] using And.intro (plain_fields_of_extract_ok hx) (ack_of_extract_ok hl hx)

/-- Settles O33: the layout laws at `rnw` = 0. -/
theorem writeLayoutFields : Obligations.WriteLayoutFields :=
  ⟨fun _ _ => layout_fields_of_decode_frame_ok (rnw := false), fun _ _ => decode_error_of_lowest_payload (rnw := false)⟩

/-- Settles O34: the layout laws at `rnw` = 1. -/
theorem readLayoutFields : Obligations.ReadLayoutFields :=
  ⟨fun _ _ => layout_fields_of_decode_frame_ok (rnw := true), fun _ _ => decode_error_of_lowest_payload (rnw := true)⟩

/-- Settles O35: the two ways `ToBit` ends. -/
theorem toBitConverts : Obligations.ToBitConverts :=
  fun _ _ => ⟨fun _ => toBit_ok_iff.2, fun h => toBit_error_iff.2 ⟨rfl, not_bit_of_nonBinaryAt h⟩⟩

end Sys2Proof.Machine
end

section
/-! PROOFS. The block reversal (44_bit_reversal.md): `Rev32` bit by bit (R111), and the documented bit order it undoes, alone and in
an encoded frame (R114). -/

namespace Sys2Proof.Machine

/-! ## The reversal of 32 captured bits -/

/-- `Rev32` undoes the documented bit order (R114). -/
@[simp] theorem rev32_range_getLsbD (v : Word) : rev32 ((List.range 32).map v.getLsbD) = v := by
  refine BitVec.eq_of_getLsbD_eq fun i hi => ?_
  rw [rev32_getLsbD _ hi]
  simp [hi]

/-! ## What `extract` reads of an encoded frame -/

/-- Bits standing in a row convert to themselves. -/
theorem toBits_append_map_bit (pre post : List DataValue) (bs : List Bit) :
    toBits (pre ++ (bs.map .bit ++ post)) pre.length bs.length = .ok bs := by
  refine toBits_ok_iff.2 ⟨rfl, fun j hj => ?_⟩
  have hmap : j < (bs.map DataValue.bit).length := by simpa using hj
  rw [List.getElem?_append_right (Nat.le_add_right ..), Nat.add_sub_cancel_left, List.getElem?_append_left hmap,
    List.getElem?_map]

/-- The bits a Frame's plain fields are sent as, at indices 0 to 8 (R50). -/
def sentPlain (f : Frame) : List Bit :=
  [f.start, f.apndp, f.rnw, f.a2, f.a3, f.parity1, f.stop, f.park, f.trn1]

/-- Both formats begin with the plain bits. -/
theorem toBits_encodeFrame_plain (f : Frame) : toBits (encodeFrame f) 0 9 = .ok (sentPlain f) := by
  unfold encodeFrame
  split <;> exact toBits_append_map_bit [] _ (sentPlain f)

/-- The payload stands where the layout of the Frame's `rnw` puts it, in the documented order (R51, R52, R114). -/
theorem toBits_encodeFrame_payload (f : Frame) :
    toBits (encodeFrame f) (layout f.rnw).base 32 = .ok ((List.range 32).map f.wdata.getLsbD) := by
  have hpayload : encodePayload f.wdata = ((List.range 32).map f.wdata.getLsbD).map .bit := by
    simp [encodePayload]
  unfold encodeFrame
  cases f.rnw
  · simpa [encodeWriteFrame, hpayload, encodeHead, layout] using
      toBits_append_map_bit (encodeHead f ++ [f.trn2]) [f.parity2] ((List.range 32).map f.wdata.getLsbD)
  · simpa [encodeReadFrame, hpayload, encodeHead, layout] using
      toBits_append_map_bit (encodeHead f) [f.parity2, f.trn2] ((List.range 32).map f.wdata.getLsbD)

@[simp] theorem length_encodeFrame (f : Frame) : (encodeFrame f).length = 46 := by
  unfold encodeFrame
  split <;> rfl

/-- The entries of an encoded frame that are not converted are the Frame's own. -/
theorem verbatim_encodeFrame (f : Frame) :
    (verbatim (encodeFrame f) 9, verbatim (encodeFrame f) 10, verbatim (encodeFrame f) 11) = f.ack ∧
    verbatim (encodeFrame f) (layout f.rnw).trn2 = f.trn2 ∧ verbatim (encodeFrame f) (layout f.rnw).parity2 = f.parity2 := by
  unfold encodeFrame
  cases f.rnw <;> exact ⟨rfl, rfl, rfl⟩

/-- Extraction undoes the encoding of a Frame, with every operand. -/
theorem extract_encodeFrame (f : Frame) : extract (encodeFrame f) = .ok f := by
  obtain ⟨hack, htrn2, hparity2⟩ := verbatim_encodeFrame f
  rw [extract_of_bits (toBits_encodeFrame_plain f) (toBits_encodeFrame_payload f)]
  refine congrArg Except.ok ?_
  change assemble _ (sentPlain f) _ (layout f.rnw) = f
  simp [assemble, sentPlain, hack, htrn2, hparity2]

/-- An encoded Frame decodes to itself, in the format its `rnw` names (R49). -/
theorem decode_encodeFrame (f : Frame) :
    decode (.frame (encodeFrame f)) = .ok (if f.rnw then .frameRead f else .frameWrite f) :=
  decode_frame_of_extract_ok (length_encodeFrame f) (extract_encodeFrame f)

/-! ## The obligation -/

/-- Settles O36: the numeral's bits are the captured ones in order, and an encoded frame decodes to the very Frame. -/
theorem blockReversal : Obligations.BlockReversal := by
  refine ⟨fun cap hl i hi => ?_, rev32_range_getLsbD, fun f => ⟨f, rfl, decode_encodeFrame f⟩⟩
  have hlt : i < cap.length := by omega
  rw [rev32_getLsbD cap hi, List.getD_eq_getElem?_getD, List.getElem?_eq_getElem hlt, Option.getD_some]

end Sys2Proof.Machine
end

section
/-! PROOFS. The faults of a completed buffer (60_exceptions.md): which index the decoder reports, and the Step of the 46th entry
with it (R120). -/

namespace Sys2Proof.Machine

/-! ## The lowest NonBinary entry of a range -/

/-- Inside the buffer, conversions report an index exactly when the lowest NonBinary entry of their range stands there. -/
theorem toBits_error_iff_lowest {buf : List DataValue} {n i k : Nat} (h : i + n ≤ buf.length) :
    toBits buf i n = .error k ↔
      i ≤ k ∧ k < i + n ∧ nonBinaryAt buf k ∧ ∀ j, i ≤ j → j < k → ¬nonBinaryAt buf j := by
  constructor
  · intro hk
    obtain ⟨hle, hlt, hne, hbits⟩ := toBits_error_iff.1 hk
    refine ⟨hle, hlt, (nonBinaryAt_iff_not_bit (by omega)).2 hne, fun j hij hjk => ?_⟩
    obtain ⟨b, hb⟩ := hbits j hij hjk
    exact not_nonBinaryAt_of_bit hb
  · rintro ⟨hle, hlt, hnb, hlow⟩
    exact toBits_error_of_lowest hle hlt hnb hlow

/-! ## The index `extract` fails at -/

theorem reportedIndex_of_plain_error {buf : List DataValue} {i : Nat} (hl : buf.length = 46)
    (h : toBits buf 0 9 = .error i) : reportedIndex buf i := by
  obtain ⟨-, hlt, hnb, hlow⟩ := (toBits_error_iff_lowest (by omega)).1 h
  exact ⟨hnb, .inl ⟨by omega, fun j => hlow j (Nat.zero_le j)⟩⟩

/-- Once the plain bits are converted, a failing payload reports the lowest NonBinary index of the layout `rnw` selects. -/
theorem reportedIndex_of_payload_error {buf : List DataValue} {plain : List Bit} {i : Nat} (hl : buf.length = 46)
    (hp : toBits buf 0 9 = .ok plain) (h : toBits buf (layout (plain.getD 2 false)).base 32 = .error i) :
    reportedIndex buf i := by
  have hbit : ∀ j, j ≤ 8 → buf[j]? = some (.bit (plain.getD j false)) := fun j hj => by
    simpa using bit_of_toBits_ok hp (j := j) (by omega)
  have hbase : ∀ rnw, 8 < (layout rnw).base ∧ (layout rnw).base + 32 ≤ 46 := by decide
  obtain ⟨h8, hend⟩ := hbase (plain.getD 2 false)
  obtain ⟨hle, hlt, hnb, hlow⟩ := (toBits_error_iff_lowest (by omega)).1 h
  refine ⟨hnb, .inr ⟨by omega, fun j hj => not_nonBinaryAt_of_bit (hbit j hj), _, hbit 2 (by decide),
    (mustBeBit_iff_layout _ i).2 (.inr ⟨hle, hlt⟩), fun j hj hji hm => ?_⟩⟩
  obtain ⟨hlo, -⟩ := ((mustBeBit_iff_layout _ j).1 hm).resolve_left (by omega)
  exact hlow j hlo hji

/-- The decoder rejects a completed buffer with the index R120 names, and with no other. -/
theorem decode_frame_error_iff_reportedIndex {buf : List DataValue} (hl : buf.length = 46) (i : Nat) :
    decode (.frame buf) = .error (.unconvertible i) ↔ reportedIndex buf i := by
  constructor
  · intro h
    obtain hp | ⟨plain, hp, hc⟩ := extract_error_iff.1 ((decode_frame_error_iff hl i).1 h)
    · exact reportedIndex_of_plain_error hl hp
    · exact reportedIndex_of_payload_error hl hp hc
  · rintro ⟨hnb, ⟨hi, hlow⟩ | ⟨h8, hplain, rnw, hrnw, hm, hlow⟩⟩
    · exact decode_error_of_lowest_plain hl hi hnb hlow
    · obtain ⟨hle, hlt⟩ := ((mustBeBit_iff_layout rnw i).1 hm).resolve_left (by omega)
      obtain ⟨k, rfl⟩ := Nat.exists_eq_add_of_le hle
      have hbase : 8 < (layout rnw).base := by cases rnw <;> decide
      refine decode_error_of_lowest_payload hl hrnw hplain (by omega) hnb fun j hj => ?_
      exact hlow _ (by omega) (by omega) ((mustBeBit_iff_layout rnw _).2 (.inr ⟨by omega, by omega⟩))

/-! ## The fault of the completing Step -/

/-- Sub-step 4 on a completed buffer raises the fault `extract` answers, and no other (R116). -/
theorem complete_fault_iff {s : State} (hf : s.fault = none) (hl : s.buf.length = 46) (c : FaultCause) :
    (complete s).fault = some c ↔ ∃ i, c = .unconvertible i ∧ extract s.buf = .error i := by
  obtain ⟨hne, -⟩ | ⟨f, -, hx, hc⟩ | ⟨i, -, hx, hc⟩ := complete_cases s
  · exact absurd hl hne
  · simp [hx, hc, hf]
  · simp [hx, hc, eq_comm]

/-- Settles O30: the decoder's conversions stop at the lowest NonBinary entry, plain bits first, and the Step of the 46th entry raises
what they report. -/
theorem faultReportsLowestIndex : Obligations.FaultReportsLowestIndex := by
  refine ⟨fun buf hl => decode_frame_error_iff_reportedIndex hl, fun d s hs he hlen h50 =>
    ⟨_, exec_classOf_live _ hs, fun c => ?_⟩⟩
  have hbuf := collected_buf_of_armed he h50
  have hl : (s.buf ++ [d]).length = 46 := by simp [hlen]
  rw [complete_fault_iff (s := collected ⟨false, d⟩ s) hs.1 (hbuf ▸ hl), hbuf]
  simp only [← decode_frame_error_iff hl, decode_frame_error_iff_reportedIndex hl]

end Sys2Proof.Machine
end

section
/-! PROOFS. Stream initialisation (70_reset_and_hazards.md R129). -/

namespace Sys2Proof.Machine

/-- While `rst` is 1 the step is stream initialisation, whatever is presented: the other cases of `step_cases` need another `input`. -/
theorem step_of_rst {s : State} {p : Presented} {rest : List PortSample} (hd : s.frameDue = false)
    (hin : s.input = { rst := true, present := p } :: rest) : step s = .next (initialise { s with input := rest }) := by
  simpa [hin] using step_cases s hd

/-- Settles O5: `rst` runs `initialise` on the rest of the stream, and no other step clears a fault. -/
theorem rstInitialises : Obligations.RstInitialises :=
  ⟨fun _ _ _ hd hin => ⟨_, step_of_rst hd hin, rfl, rfl, rfl, rfl, rfl, rfl, rfl⟩, onlyRst_clears_fault⟩

end Sys2Proof.Machine
end

section
/-! PROOFS. What one step does with each port sample (30_encoding.md R46, 70_reset_and_hazards.md), and with each word on the ports. -/

namespace Sys2Proof.Machine

/-! ## One step for each port sample -/

theorem frameDue_of_live {s : State} (hs : s.live) : s.frameDue = false := by
  obtain ⟨hf, hb⟩ := hs
  have hne : s.buf.length ≠ 46 := by omega
  simp [State.frameDue, hf, frameLen, hne]

theorem frameDue_of_faulted {s : State} {x : FaultCause} (h : s.fault = some x) : s.frameDue = false := by
  simp [State.frameDue, h]

theorem step_of_end {s : State} (hd : s.frameDue = false) (hin : s.input = []) : step s = .next s.quiet := by
  simp [step, fetch, hd, hin]

theorem step_of_nothing {s : State} {rest : List PortSample} (hd : s.frameDue = false)
    (hin : s.input = { rst := false, present := .nothing } :: rest) :
    step s = .next { s with input := rest, output := .none } := by
  simp [step, fetch, hd, hin, fetchSample, State.quiet]

theorem step_of_cycle {s : State} {w : BitVec 4} {rest : List PortSample} (hd : s.frameDue = false)
    (hin : s.input = { rst := false, present := .cycle w } :: rest) :
    step s = runWord (.cycle w) { s with input := rest } := by
  simp [step, fetch, hd, hin, fetchSample]

/-- A token with no data half before it is on the data line. -/
theorem step_of_first_token {s : State} {ch : Byte} {rest : List PortSample} (hd : s.frameDue = false)
    (htok : s.tokData = none) (hin : s.input = { rst := false, present := .token ch } :: rest) :
    step s = runWord (.dataToken ch) { s with input := rest } := by
  simp [step, fetch, hd, hin, fetchSample, htok]

/-- A token after a data half is on the clock line. -/
theorem step_of_second_token {s : State} {ch : Byte} {rest : List PortSample} (hd : s.frameDue = false)
    (htok : s.tokData ≠ none) (hin : s.input = { rst := false, present := .token ch } :: rest) :
    step s = runWord (.clockToken ch) { s with input := rest } := by
  obtain ⟨d, htok⟩ := Option.ne_none_iff_exists'.1 htok
  simp [step, fetch, hd, hin, fetchSample, htok]

theorem step_of_record {s : State} {dtok ctok : Byte} {rest : List PortSample} (hd : s.frameDue = false)
    (hin : s.input = { rst := false, present := .record dtok ctok } :: rest) :
    step s = runRecord dtok ctok { s with input := rest, tokData := none, tokClock := none } := by
  simp [step, fetch, hd, hin, fetchSample]

theorem step_of_frameDue {s : State} (hd : s.frameDue = true) : step s = runWord (.frame s.buf) s := by
  simp [step, fetch, hd]

/-! ## Words that decode and words that do not -/

/-- A data-line character is no token, or one that gives the record its `data` (R62 to R66, R69). -/
theorem decode_dataToken_cases (ch : Byte) :
    decode (.dataToken ch) = .error .badDataToken ∨
      ∃ i d, decode (.dataToken ch) = .ok i ∧ ∀ s, exec i s = dataToken d s := by
  obtain ⟨h, -⟩ | ⟨i, d, hi, hexec, -⟩ := record_words ch 0x30
  · exact .inl h
  · exact .inr ⟨i, d, hi, hexec⟩

/-- A clock-line character is no token, or one that gives the record its `clock` (R67 to R69). -/
theorem decode_clockToken_cases (ch : Byte) :
    decode (.clockToken ch) = .error .badClockToken ∨
      ∃ j c, decode (.clockToken ch) = .ok j ∧ ∀ s, exec j s = clockToken c s := by
  obtain ⟨h, -⟩ | ⟨-, -, -, -, ⟨h, -⟩ | ⟨j, c, hj, hexec, -⟩⟩ := record_words 0x30 ch
  · cases h
  · exact .inl h
  · exact .inr ⟨j, c, hj, hexec⟩

theorem runWord_of_decode_ok {e : Encoded} {i : Instr} (h : decode e = .ok i) (s : State) : runWord e s = exec i s := by
  simp only [runWord, h]

theorem runWord_of_decode_error {e : Encoded} {r : Reject} (h : decode e = .error r) (s : State) :
    runWord e s = rejectWord r s := by
  simp only [runWord, h]

theorem badToken_of_no_fault (w : TokenLine) {s : State} (hf : s.fault = none) :
    badToken w s = raise (.badToken w) { s with tokData := none, tokClock := none } := by
  simp [badToken, hf]

theorem badToken_of_faulted (w : TokenLine) {s : State} {x : FaultCause} (hf : s.fault = some x) : badToken w s = s.quiet := by
  simp [badToken, hf]

/-- A character on the data line is a bad token, or gives the record its `data`. -/
theorem runWord_dataToken_cases (ch : Byte) (s : State) :
    runWord (.dataToken ch) s = .next (badToken .data s) ∨ ∃ d, runWord (.dataToken ch) s = dataToken d s := by
  obtain hbad | ⟨i, d, hi, hexec⟩ := decode_dataToken_cases ch
  · exact .inl (runWord_of_decode_error hbad s)
  · exact .inr ⟨d, (runWord_of_decode_ok hi s).trans (hexec s)⟩

/-- A character on the clock line is a bad token, or gives the record its `clock`. -/
theorem runWord_clockToken_cases (ch : Byte) (s : State) :
    runWord (.clockToken ch) s = .next (badToken .clock s) ∨ ∃ c, runWord (.clockToken ch) s = clockToken c s := by
  obtain hbad | ⟨j, c, hj, hexec⟩ := decode_clockToken_cases ch
  · exact .inl (runWord_of_decode_error hbad s)
  · exact .inr ⟨c, (runWord_of_decode_ok hj s).trans (hexec s)⟩

/-- A port word is a Cycle's, which takes its Step, or has a reserved code. -/
theorem runWord_cycle_cases (w : BitVec 4) (s : State) :
    (∃ c, runWord (.cycle w) s = decoderStep c s) ∨
      (runWord (.cycle w) s = .refused .reservedPortCode ∧ decodeDataValue (w.extractLsb' 0 3) = none) := by
  obtain ⟨c, hc⟩ | ⟨hbad, hcode⟩ := decode_cycle_cases w
  · exact .inl ⟨c, (runWord_of_decode_ok hc s).trans (exec_classOf c s)⟩
  · exact .inr ⟨runWord_of_decode_error hbad s, hcode⟩

/-- A Faulted block ignores a character on the data line, token or not (R117, R123). -/
theorem runWord_dataToken_faulted (ch : Byte) {s : State} {x : FaultCause} (hf : s.fault = some x) :
    runWord (.dataToken ch) s = .next s.quiet := by
  obtain h | ⟨d, h⟩ := runWord_dataToken_cases ch s
  · rw [h, badToken_of_faulted _ hf]
  · rw [h, dataToken_faulted d hf]

/-- What a step between Steps runs, by the next port sample. -/
theorem step_words {s : State} (hd : s.frameDue = false) :
    step s = .next s.quiet ∨
    (∃ rest, step s = .next (initialise { s with input := rest })) ∨
    (∃ rest, step s = .next { s with input := rest, output := .none }) ∨
    (∃ w rest, s.input = { rst := false, present := .cycle w } :: rest ∧
      step s = runWord (.cycle w) { s with input := rest }) ∨
    (∃ ch rest, s.tokData = none ∧ step s = runWord (.dataToken ch) { s with input := rest }) ∨
    (∃ ch rest, s.tokData ≠ none ∧ step s = runWord (.clockToken ch) { s with input := rest }) ∨
    ∃ dtok ctok rest, step s = runRecord dtok ctok { s with input := rest, tokData := none, tokClock := none } := by
  cases hin : s.input with
  | nil => exact .inl (step_of_end hd hin)
  | cons p rest =>
    obtain ⟨_ | _, p⟩ := p
    · cases p with
      | nothing => exact .inr (.inr (.inl ⟨rest, step_of_nothing hd hin⟩))
      | cycle w => exact .inr (.inr (.inr (.inl ⟨w, rest, rfl, step_of_cycle hd hin⟩)))
      | record a b => exact .inr (.inr (.inr (.inr (.inr (.inr ⟨a, b, rest, step_of_record hd hin⟩)))))
      | token ch =>
        by_cases htok : s.tokData = none
        · exact .inr (.inr (.inr (.inr (.inl ⟨ch, rest, htok, step_of_first_token hd htok hin⟩))))
        · exact .inr (.inr (.inr (.inr (.inr (.inl ⟨ch, rest, htok, step_of_second_token hd htok hin⟩)))))
    · exact .inr (.inl ⟨rest, step_of_rst hd hin⟩)

/-! ## The obligations about the step -/

/-- Settles O1: by the values of the reset state. -/
theorem resetStateIsInitial : Obligations.ResetStateIsInitial :=
  ⟨rfl, rfl, rfl, rfl, rfl, rfl, rfl, rfl⟩

/-- Settles O6: the end of the stream and an empty port sample. -/
theorem noCycleNoStep : Obligations.NoCycleNoStep :=
  fun _ hd => ⟨step_of_end hd, fun _ => step_of_nothing hd⟩

/-- Settles O8: the two ways a step of a Faulted block goes on. -/
theorem faultLastsUntilInitialised : Obligations.FaultLastsUntilInitialised :=
  fun _ _ _ hf h => (step_faulted hf h).symm

/-- Settles O47: each place a word is taken from, and `runWord` or `runRecord` on it. -/
theorem stepRunsTheDecodedInstruction : Obligations.StepRunsTheDecodedInstruction := by
  refine fun s i => ⟨fun w rest hd hin hi => ?_, fun ch rest hd hin hi => ?_, fun dtok ctok rest j t hd hin hi hj ht => ?_,
    fun hd hi => ?_⟩
  · rw [step_of_cycle hd hin, runWord_of_decode_ok hi]
  · split at hi
    · rw [step_of_first_token hd ‹_› hin, runWord_of_decode_ok hi]
    · rw [step_of_second_token hd ‹_› hin, runWord_of_decode_ok hi]
  · simp only [step_of_record hd hin, runRecord, hi, ht, runWord_of_decode_ok hj]
  · rw [step_of_frameDue hd, runWord_of_decode_ok hi]

/-- Settles O48: the four words decode to no Cycle. -/
theorem reservedCodeIsRefused : Obligations.ReservedCodeIsRefused := by
  intro s w rest hd hin hw
  rw [step_of_cycle hd hin, runWord_of_decode_error ((portWordsOfCycles.2 w).2 hw), rejectWord]

/-- Settles O49: the character is rejected in its place, and no fault stands that would hide it. -/
theorem badTokenRaises : Obligations.BadTokenRaises := by
  intro s ch rest hs hin
  have hd := frameDue_of_live hs
  have hraise (w : TokenLine) := badToken_of_no_fault w (s := { s with input := rest }) hs.1
  refine ⟨fun htok hbad => ?_, fun htok hbad => ?_⟩
  · rw [step_of_first_token hd htok hin, runWord_of_decode_error hbad, rejectWord, hraise]
    exact ⟨_, rfl, rfl, rfl, rfl, rfl, rfl⟩
  · rw [step_of_second_token hd htok hin, runWord_of_decode_error hbad, rejectWord, hraise]
    exact ⟨_, rfl, rfl, rfl, rfl, rfl, rfl⟩

/-- Settles O52: the record's latches are among what `initialise` clears, the free-value counter is not. -/
theorem rstDiscardsHalfRecord : Obligations.RstDiscardsHalfRecord :=
  fun _ _ _ hd hin => ⟨_, step_of_rst hd hin, rfl, rfl, rfl⟩

end Sys2Proof.Machine
end

section
/-! PROOFS. What every step from the invariant of 10_state.md section 5 can do: it goes on with the invariant (R28, R29, R30), or it is
refused for a reserved port code (R48). -/

namespace Sys2Proof.Machine

/-! ## Each operation goes on from the invariant, and keeps it -/

theorem decoderStep_next_of_inv (c : Cycle) {s : State} (hs : s.Inv) : ∃ t, decoderStep c s = .next t ∧ t.Inv := by
  have hnext : ∃ t, decoderStep c s = .next t := by
    cases hf : s.fault with
    | some x => exact ⟨_, decoderStep_faulted c hf⟩
    | none => exact ⟨_, decoderStep_live c (live_of_inv hs hf)⟩
  exact hnext.imp fun _ h => ⟨h, decoderStep_inv c hs h⟩

theorem exec_classOf_next_of_inv (c : Cycle) {s : State} (hs : s.Inv) : ∃ t, exec (classOf c) s = .next t ∧ t.Inv :=
  exec_classOf c s ▸ decoderStep_next_of_inv c hs

theorem dataToken_next_of_inv (d : DataValue) {s : State} (hs : s.Inv) : ∃ t, dataToken d s = .next t ∧ t.Inv := by
  have hnext : ∃ t, dataToken d s = .next t := by
    cases hf : s.fault with
    | some x => exact ⟨_, dataToken_faulted d hf⟩
    | none => exact ⟨_, dataToken_first d hf hs.no_clock_half⟩
  exact hnext.imp fun _ h => ⟨h, dataToken_inv d hs h⟩

/-- The invariant is that of the state without its record, for a state with no clock half. -/
theorem inv_of_no_record {s : State} (hs : s.Inv) (o : Output) :
    ({ s with output := o, tokData := none, tokClock := none } : State).Inv :=
  ⟨hs.run_le, hs.buf_le, hs.idle_empty, hs.cause_listed, hs.buf_wf, rfl⟩

theorem clockToken_next_of_inv (c : Bit) {s : State} (hs : s.Inv) (hd : s.tokData ≠ none) :
    ∃ t, clockToken c s = .next t ∧ t.Inv := by
  cases hf : s.fault with
  | some x => exact ⟨_, clockToken_faulted c hf, quiet_inv hs⟩
  | none =>
    obtain ⟨d, hd⟩ := Option.ne_none_iff_exists'.1 hd
    rw [clockToken_second c hf hd]
    exact decoderStep_next_of_inv _ (inv_of_no_record hs .none)

theorem badToken_inv (w : TokenLine) {s : State} (hs : s.Inv) : (badToken w s).Inv := by
  unfold badToken
  split
  · exact quiet_inv hs
  · exact raise_inv _ _ trivial rfl

theorem runRecord_next_of_inv (a b : Byte) {s : State} (hs : s.Inv) (hd : s.tokData = none) :
    ∃ t, runRecord a b s = .next t ∧ t.Inv := by
  obtain ⟨x, -, h⟩ | ⟨-, c, -, h⟩ | ⟨-, w, -, h⟩ := runRecord_cases a b hd hs.no_clock_half
  · exact ⟨_, h, quiet_inv hs⟩
  · rw [h]
    exact decoderStep_next_of_inv c hs
  · exact ⟨_, h, raise_inv _ _ trivial hs.no_clock_half⟩

theorem runWord_dataToken_next_of_inv (ch : Byte) {s : State} (hs : s.Inv) :
    ∃ t, runWord (.dataToken ch) s = .next t ∧ t.Inv := by
  obtain h | ⟨d, h⟩ := runWord_dataToken_cases ch s
  · exact ⟨_, h, badToken_inv _ hs⟩
  · exact h ▸ dataToken_next_of_inv d hs

theorem runWord_clockToken_next_of_inv (ch : Byte) {s : State} (hs : s.Inv) (hd : s.tokData ≠ none) :
    ∃ t, runWord (.clockToken ch) s = .next t ∧ t.Inv := by
  obtain h | ⟨c, h⟩ := runWord_clockToken_cases ch s
  · exact ⟨_, h, badToken_inv _ hs⟩
  · exact h ▸ clockToken_next_of_inv c hs hd

/-- From the invariant a step goes on to a state that has it, or is refused for the reserved code of the Cycle presented. -/
theorem step_of_inv {s : State} (hs : s.Inv) :
    (∃ t, step s = .next t ∧ t.Inv) ∨
      (step s = .refused .reservedPortCode ∧
        ∃ w rest, s.input = { rst := false, present := .cycle w } :: rest ∧ decodeDataValue (w.extractLsb' 0 3) = none) := by
  have hrest := withInput_inv hs
  obtain h | ⟨rest, h⟩ | ⟨rest, h⟩ | ⟨w, rest, hin, h⟩ | ⟨ch, rest, -, h⟩ | ⟨ch, rest, htok, h⟩ | ⟨a, b, rest, h⟩ :=
    step_words (due_false_of_inv hs)
  · exact .inl ⟨_, h, quiet_inv hs⟩
  · exact .inl ⟨_, h, initialise_inv _⟩
  · exact .inl ⟨_, h, quiet_inv (hrest rest)⟩
  · rw [h]
    obtain ⟨c, hw⟩ | ⟨hw, hcode⟩ := runWord_cycle_cases w { s with input := rest }
    · exact .inl (hw ▸ decoderStep_next_of_inv c (hrest rest))
    · exact .inr ⟨hw, w, rest, hin, hcode⟩
  · exact .inl (h ▸ runWord_dataToken_next_of_inv ch (hrest rest))
  · exact .inl (h ▸ runWord_clockToken_next_of_inv ch (hrest rest) htok)
  · exact .inl (h ▸ runRecord_next_of_inv a b (inv_of_no_record (hrest rest) _) rfl)

/-- Settles O3: a step from the invariant that goes on keeps it. -/
theorem everyStepKeepsInvariant : Obligations.EveryStepKeepsInvariant := by
  intro s t hs h
  obtain ⟨u, hu, hinv⟩ | ⟨hr, -⟩ := step_of_inv hs
  · cases hu.symm.trans h
    exact hinv
  · cases hr.symm.trans h

/-- Settles O4: the refusal is the only stop. -/
theorem onlyReservedCodesStop : Obligations.OnlyReservedCodesStop :=
  fun _ hs => (step_of_inv hs).imp_left fun ⟨t, h, _⟩ => ⟨t, h⟩

/-- Settles O2: stream initialisation gives the reset state, and establishes the invariant. -/
theorem invariantHoldsAtReset : Obligations.InvariantHoldsAtReset :=
  initialise_inv State.reset

end Sys2Proof.Machine
end

section
/-! PROOFS. Runs over streams of Cycles: the reset detector over a whole stream (R87, R88), the clock-low Cycles each Frame takes (R29,
R41), and frames sent in the documented bit order (R114, R139). -/

namespace Sys2Proof.Machine

/-! ## Running a stream -/

/-- A run of one instruction and the rest, taken apart (R41). -/
theorem feed_cons_eq_some_iff {i : Instr} {is : List Instr} {s u : State} {os : List Output} :
    feed (i :: is) s = some (u, os) ↔
      ∃ t os', exec i s = .next t ∧ feed is t = some (u, os') ∧ os = t.output :: os' := by
  rw [feed]
  cases exec i s with
  | fault r => simp
  | refused r => simp
  | next t =>
    cases hr : feed is t with
    | none => simp [hr]
    | some p => simp [hr, Prod.ext_iff, eq_comm, and_assoc]

theorem exec_classOf_inv {c : Cycle} {s t : State} (hs : s.Inv) (h : exec (classOf c) s = .next t) : t.Inv :=
  decoderStep_inv c hs ((exec_classOf c s).symm.trans h)

/-- A stream of Cycles runs to its end from every state between Steps. -/
theorem feed_ofCycles_of_inv (cs : List Cycle) {s : State} (hs : s.Inv) : ∃ t os, feed (ofCycles cs) s = some (t, os) := by
  induction cs generalizing s with
  | nil => exact ⟨s, [], rfl⟩
  | cons c cs ih =>
    obtain ⟨t, ht, hinv⟩ := exec_classOf_next_of_inv c hs
    obtain ⟨u, os, hu⟩ := ih hinv
    exact ⟨u, _, feed_cons_eq_some_iff.2 ⟨t, os, ht, hu, rfl⟩⟩

/-- A Faulted block stays so over a run, with nothing on the Output (R72). -/
theorem feed_faulted {is : List Instr} {s t : State} {os : List Output} {x : FaultCause} (hf : s.fault = some x)
    (h : feed is s = some (t, os)) : t.fault = some x ∧ ∀ o ∈ os, o = .none := by
  induction is generalizing s os with
  | nil =>
    cases h
    exact ⟨hf, List.forall_mem_nil _⟩
  | cons i is ih =>
    obtain ⟨u, os', hu, hrest, rfl⟩ := feed_cons_eq_some_iff.1 h
    obtain rfl : s.quiet = u := by simpa [exec_faulted i hf] using hu
    obtain ⟨hx, hos⟩ := ih (s := s.quiet) hf hrest
    exact ⟨hx, List.forall_mem_cons.2 ⟨rfl, hos⟩⟩

/-- A run that ends without a fault had none before. -/
theorem fault_none_of_feed {is : List Instr} {s t : State} {os : List Output} (h : feed is s = some (t, os))
    (ht : t.fault = none) : s.fault = none := by
  cases hf : s.fault with
  | none => rfl
  | some x => cases (feed_faulted hf h).1.symm.trans ht

/-! ## The reset detector over a stream -/

theorem Output.isReset_iff {o : Output} : o.isReset = true ↔ o = .event .resetEvent := by
  rcases o with _ | (_ | f) | c <;> simp [Output.isReset]

/-- The detector alone does on one Cycle what sub-steps 1 to 3 do with the counter (R84, R85). -/
theorem resetTrace_cons (c : Cycle) (s : State) (ds : List DataValue) :
    resetTrace s.run (c.data :: ds) =
      (decide (hitsFifty c s) :: (resetTrace (collected c s).run ds).1, (resetTrace (collected c s).run ds).2) := by
  by_cases hd : c.data = .bit true
  · by_cases hr : s.run = 49 <;> simp [resetTrace, collected, hitsFifty, hd, hr]
  · simp [resetTrace, collected, hitsFifty, hd]

/-- Settles O38: each Step's ResetEvent and counter are the detector's, and a run without a fault has no Step with one. -/
theorem resetEventsFollowDataAlone : Obligations.ResetEventsFollowDataAlone := by
  intro cs
  induction cs with
  | nil =>
    rintro s t os - - h -
    cases h
    rfl
  | cons c cs ih =>
    intro s t os hs hf h ht
    obtain ⟨u, os', hu, hrest, rfl⟩ := feed_cons_eq_some_iff.1 h
    have huf := fault_none_of_feed hrest ht
    obtain ⟨hreset, hrun⟩ := resetDetectorStep c s u (live_of_inv hs hf) hu
    have hcount : u.run = (collected c s).run := hrun huf
    have hflag : u.output.isReset = decide (hitsFifty c s) := by
      rw [Bool.eq_iff_iff, Output.isReset_iff, hreset, decide_eq_true_iff]
    rw [List.map_cons, List.map_cons, resetTrace_cons, hflag, ← hcount,
      ← ih u t os' (exec_classOf_inv hs hu) huf hrest ht]

/-- The detector on a run of ones alone: the count is divided by 50 (R88). -/
theorem resetTrace_ones (n : Nat) {run : Nat} (h : run ≤ 49) :
    (resetTrace run (List.replicate n (.bit true))).1.countP id = (run + n) / 50 ∧
      (resetTrace run (List.replicate n (.bit true))).2 = (run + n) % 50 := by
  induction n generalizing run with
  | zero =>
    simp only [List.replicate_zero, resetTrace, List.countP_nil]
    omega
  | succ n ih =>
    rw [List.replicate_succ, resetTrace, if_pos rfl]
    split
    · obtain ⟨hcount, hrun⟩ := ih (run := 0) (by omega)
      simp only [List.countP_cons, hcount, hrun, id, if_true]
      omega
    · obtain ⟨hcount, hrun⟩ := ih (run := run + 1) (by omega)
      simp only [List.countP_cons, hcount, hrun, id, Bool.false_eq_true, if_false]
      omega

/-- Settles O37: a run without a fault follows the detector alone, which divides the count by 50. -/
theorem runOfOnesCountsResets : Obligations.RunOfOnesCountsResets := by
  intro clocks s hs hf
  obtain ⟨t, os, h⟩ := feed_ofCycles_of_inv (clocks.map fun c => { clock := c, data := .bit true }) hs
  refine ⟨t, os, h, fun ht => ?_⟩
  have htrace := resetEventsFollowDataAlone _ s t os hs hf h ht
  have hdata : (clocks.map fun c => ({ clock := c, data := .bit true } : Cycle)).map Cycle.data =
      List.replicate clocks.length (.bit true) := by
    simp [List.map_const', Function.comp_def]
  obtain ⟨hcount, hrun⟩ := resetTrace_ones clocks.length (hs.run_le hf)
  rw [hdata] at htrace
  rw [← htrace] at hcount hrun
  exact ⟨by simpa [List.countP_map] using hcount, hrun⟩

/-! ## The clock-low Cycles of a Frame -/

theorem lowData_cons (c : Cycle) (cs : List Cycle) :
    lowData (c :: cs) = if c.clock then lowData cs else c.data :: lowData cs := by
  cases hc : c.clock <;> simp [lowData, hc]

/-- Sub-steps 1 to 3 add an entry only from a clock-low Cycle (R75). -/
theorem collected_len_le (c : Cycle) (s : State) : (collected c s).buf.length ≤ s.buf.length + (lowData [c]).length := by
  have hclear : (if hitsFifty c s then [] else s.buf).length ≤ s.buf.length := by split <;> simp
  have hentry : (if !c.clock && armedBy c s then [c.data] else []).length ≤ (lowData [c]).length := by
    rw [lowData_cons]
    cases c.clock <;> cases armedBy c s <;> simp
  simpa only [collected, List.length_append] using Nat.add_le_add hclear hentry

/-- What one Step costs: a Frame uses up 46 entries, and an entry comes from a clock-low Cycle. -/
theorem frame_cost_of_exec {c : Cycle} {s t : State} (hs : s.live) (h : exec (classOf c) s = .next t) :
    46 * t.output.isFrame.toNat + (if t.fault = none then t.buf.length else 0) ≤ s.buf.length + (lowData [c]).length := by
  obtain rfl : complete (collected c s) = t := by simpa [exec_classOf_live c hs] using h
  have hlen := collected_len_le c s
  have hnoFrame : (collected c s).output.isFrame = false := by
    simp only [collected]
    split <;> rfl
  obtain ⟨-, ht⟩ | ⟨f, hl, -, ht⟩ | ⟨i, -, -, ht⟩ := complete_cases (collected c s)
  · have hf : (collected c s).fault = none := hs.1
    rw [ht, hnoFrame, if_pos hf]
    simpa using hlen
  · simp [ht, Output.isFrame]
    omega
  · simp [ht, Output.isFrame]

/-- Settles O39: the costs of the Steps add up, and after a fault no Frame comes. -/
theorem framesNeedTheirCycles : Obligations.FramesNeedTheirCycles := by
  intro cs
  induction cs with
  | nil =>
    rintro s t os - - h
    cases h
    simp
  | cons c cs ih =>
    intro s t os hs hf h
    obtain ⟨u, os', hu, hrest, rfl⟩ := feed_cons_eq_some_iff.1 h
    have hcost := frame_cost_of_exec (live_of_inv hs hf) hu
    have hcount : (u.output :: os').countP Output.isFrame = u.output.isFrame.toNat + os'.countP Output.isFrame := by
      cases hframe : u.output.isFrame <;> simp [hframe, Nat.add_comm]
    have hlow : (lowData (c :: cs)).length = (lowData [c]).length + (lowData cs).length := by
      rw [← List.length_append, lowData, lowData, lowData, ← List.map_append, ← List.filter_append, List.singleton_append]
    cases huf : u.fault with
    | none =>
      have := ih u t os' (exec_classOf_inv hs hu) huf hrest
      rw [if_pos huf] at hcost
      omega
    | some x =>
      have hnone : os'.countP Output.isFrame = 0 := by
        refine List.countP_eq_zero.2 fun o ho => ?_
        rw [(feed_faulted huf hrest).2 o ho]
        exact nofun
      omega

/-! ## Frames sent in the documented bit order -/

/-- The buffer holds the beginning of the frames `fs`, as they are sent, and `low` is the rest of them. -/
structure Awaits (fs : List Frame) (low : List DataValue) (s : State) : Prop where
  inv : s.Inv
  no_fault : s.fault = none
  idle_at_end : fs = [] → s.executing = false
  starts : ∀ f ∈ fs, f.start = true
  sent : s.buf ++ low = fs.flatMap encodeFrame

/-- An encoded frame begins with its start bit (R50). -/
theorem encodeFrame_eq_cons (f : Frame) : ∃ rest, encodeFrame f = .bit f.start :: rest := by
  unfold encodeFrame
  split <;> exact ⟨_, rfl⟩

/-- Where a clock-low Cycle brings the next value of a frame, the block is Armed or this is the start bit, which arms it (R73, R75). -/
theorem armedBy_of_awaits {f : Frame} {fs : List Frame} {d : DataValue} {low : List DataValue} {s : State}
    (h : Awaits (f :: fs) (d :: low) s) : armedBy ⟨false, d⟩ s = true := by
  cases he : s.executing with
  | true => simp [armedBy, he]
  | false =>
    obtain ⟨rest, hrest⟩ := encodeFrame_eq_cons f
    have hsent := h.sent
    rw [h.inv.idle_empty h.no_fault he, List.flatMap_cons, hrest] at hsent
    obtain rfl : d = .bit f.start := by simpa using congrArg List.head? hsent
    simp [armedBy, h.starts f (by simp)]

/-- Sub-steps 1 to 3 on the next value of a frame append it. -/
theorem collected_buf_of_awaits {f : Frame} {fs : List Frame} {d : DataValue} {low : List DataValue} {s : State}
    (h : Awaits (f :: fs) (d :: low) s) (h50 : ¬hitsFifty ⟨false, d⟩ s) :
    (collected ⟨false, d⟩ s).buf = s.buf ++ [d] := by
  simp [collected, armedBy_of_awaits h, h50]

/-- The Step of the next value of a frame: the value is kept, or it is the last of a Frame, which is then on the Output. -/
theorem awaits_step_low {fs : List Frame} {d : DataValue} {low : List DataValue} {s t : State} (h : Awaits fs (d :: low) s)
    (h50 : ¬hitsFifty ⟨false, d⟩ s) (ht : exec (classOf ⟨false, d⟩) s = .next t) :
    ∃ gs, Awaits gs low t ∧ fs.map Event.frame = eventsOf [t.output] ++ gs.map Event.frame := by
  have hinv := exec_classOf_inv h.inv ht
  have hlive := live_of_inv h.inv h.no_fault
  obtain rfl : complete (collected ⟨false, d⟩ s) = t := by simpa [exec_classOf_live _ hlive] using ht
  obtain _ | ⟨f, fs⟩ := fs
  · simpa using h.sent
  have hbuf := collected_buf_of_awaits h h50
  have hsent : (s.buf ++ [d]) ++ low = encodeFrame f ++ fs.flatMap encodeFrame := by simpa using h.sent
  by_cases hlen : s.buf.length = 45
  · obtain ⟨hfull, hlow⟩ := List.append_inj hsent (by simp [hlen])
    have hdone : complete (collected ⟨false, d⟩ s) = emitFrame f (collected ⟨false, d⟩ s) :=
      complete_of_extract_ok (by simp [hbuf, hlen]) (by rw [hbuf, hfull, extract_encodeFrame])
    rw [hdone] at hinv ⊢
    exact ⟨fs, ⟨hinv, h.no_fault, fun _ => rfl, fun g hg => h.starts g (by simp [hg]), hlow⟩, rfl⟩
  · have hle := hlive.2
    have hshort : complete (collected ⟨false, d⟩ s) = collected ⟨false, d⟩ s :=
      complete_of_short (by simp [hbuf]; omega)
    rw [hshort] at hinv ⊢
    refine ⟨f :: fs, ⟨hinv, h.no_fault, nofun, h.starts, ?_⟩, ?_⟩
    · simpa [hbuf] using hsent
    · simp [collected, h50, eventsOf]

/-- A clock-high Cycle leaves what was collected. -/
theorem awaits_step_high {fs : List Frame} {d : DataValue} {low : List DataValue} {s t : State} (h : Awaits fs low s)
    (h50 : ¬hitsFifty ⟨true, d⟩ s) (ht : exec (classOf ⟨true, d⟩) s = .next t) :
    Awaits fs low t ∧ eventsOf [t.output] = [] := by
  have hinv := exec_classOf_inv h.inv ht
  obtain rfl : collected ⟨true, d⟩ s = t := by
    simpa [exec_classOf_high (c := ⟨true, d⟩) rfl (live_of_inv h.inv h.no_fault)] using ht
  refine ⟨⟨hinv, h.no_fault, fun hfs => ?_, h.starts, ?_⟩, ?_⟩
  · simp [collected, armedBy, h.idle_at_end hfs]
  · rw [collected_buf_of_high rfl, if_neg h50]
    exact h.sent
  · simp [collected, h50, eventsOf]

theorem awaits_step {fs : List Frame} {c : Cycle} {cs : List Cycle} {s t : State} (h : Awaits fs (lowData (c :: cs)) s)
    (h50 : ¬hitsFifty c s) (ht : exec (classOf c) s = .next t) :
    ∃ gs, Awaits gs (lowData cs) t ∧ fs.map Event.frame = eventsOf [t.output] ++ gs.map Event.frame := by
  obtain ⟨_ | _, d⟩ := c
  · rw [lowData_cons, if_neg (by simp)] at h
    exact awaits_step_low h h50 ht
  · rw [lowData_cons, if_pos rfl] at h
    obtain ⟨hnext, hout⟩ := awaits_step_high h h50 ht
    exact ⟨fs, hnext, by rw [hout, List.nil_append]⟩

/-- With nothing more to come the block is Idle and all frames are received: the buffer holds no whole one. -/
theorem awaits_nil {fs : List Frame} {s : State} (h : Awaits fs [] s) : fs = [] ∧ s.executing = false ∧ s.buf = [] := by
  have hsent := h.sent
  rw [List.append_nil] at hsent
  obtain rfl : fs = [] := by
    obtain _ | ⟨f, fs⟩ := fs
    · rfl
    · have hlen := congrArg List.length hsent
      have hle := h.inv.buf_le h.no_fault
      simp at hlen
      omega
  exact ⟨rfl, h.idle_at_end rfl, hsent⟩

theorem eventsOf_cons (o : Output) (os : List Output) : eventsOf (o :: os) = eventsOf [o] ++ eventsOf os := by
  rw [eventsOf, eventsOf, eventsOf, ← List.filterMap_append, List.singleton_append]

/-- A stream of frames with no run of 50 ones has them as its Events, in order, and ends Idle with an empty buffer. -/
theorem feed_sent_frames {cs : List Cycle} {fs : List Frame} {s : State} (h : Awaits fs (lowData cs) s)
    (hquiet : (resetTrace s.run (cs.map Cycle.data)).1.all (fun b => !b) = true) :
    ∃ t os, feed (ofCycles cs) s = some (t, os) ∧ eventsOf os = fs.map Event.frame ∧
      t.fault = none ∧ t.executing = false ∧ t.buf = [] := by
  induction cs generalizing fs s with
  | nil =>
    obtain ⟨rfl, hidle, hempty⟩ := awaits_nil h
    exact ⟨s, [], rfl, rfl, h.no_fault, hidle, hempty⟩
  | cons c cs ih =>
    rw [List.map_cons, resetTrace_cons, List.all_cons, Bool.and_eq_true, Bool.not_eq_true', decide_eq_false_iff_not] at hquiet
    obtain ⟨h50, hquiet⟩ := hquiet
    obtain ⟨t, ht, -⟩ := exec_classOf_next_of_inv c h.inv
    obtain ⟨gs, hgs, hevents⟩ := awaits_step h h50 ht
    have hrun : t.run = (collected c s).run :=
      (resetDetectorStep c s t (live_of_inv h.inv h.no_fault) ht).2 hgs.no_fault
    obtain ⟨u, os, hfeed, hos, hend⟩ := ih hgs (hrun ▸ hquiet)
    refine ⟨u, t.output :: os, feed_cons_eq_some_iff.2 ⟨t, os, ht, hfeed, rfl⟩, ?_, hend⟩
    rw [eventsOf_cons, hos, hevents]

/-- Settles O40: one frame awaited from Idle. -/
theorem sentFrameIsReceived : Obligations.SentFrameIsReceived := by
  intro f cs s hs hf he hstart hlow hquiet
  refine feed_sent_frames (fs := [f]) ⟨hs, hf, fun _ => he, by simpa using hstart, ?_⟩ hquiet
  simp [hs.idle_empty hf he, hlow]

/-- Settles O41: two frames awaited from Idle, the second from the end of the first. -/
theorem backToBackFramesBothDecode : Obligations.BackToBackFramesBothDecode := by
  intro f g cs ds s hs hf he hstartf hstartg hlowf hlowg hquiet
  have hlow : lowData (cs ++ ds) = encodeFrame f ++ encodeFrame g := by
    rw [← hlowf, ← hlowg]
    simp [lowData]
  refine feed_sent_frames (fs := [f, g]) ⟨hs, hf, fun _ => he, by simp [hstartf, hstartg], ?_⟩ hquiet
  simp [hs.idle_empty hf he, hlow]

end Sys2Proof.Machine
end

section
/-! PROOFS. The encodings (30_encoding.md): decoding and encoding undo each other (R54), what is accepted (R36, R44, R69), and the text
forms outside the block (R58, R60). -/

namespace Sys2Proof.Machine

/-! ## Decoding what the encoder writes -/

/-- The word of a Cycle class is the port word of its Cycles (R47). -/
@[simp] theorem encode_classOf (c : Cycle) : encode (classOf c) = .cycle (encodeCycle c) := by
  obtain ⟨clk, d⟩ := c
  cases d with
  | bit b => cases clk <;> cases b <;> rfl
  | nonBinary k => cases clk <;> rfl

/-- Settles O45: tokens and the binary Cycles have one word each, a NonBinary Cycle and a frame come back with their operand. -/
theorem decodeOfEncode : Obligations.DecodeOfEncode := by
  intro i hi
  cases i with
  | tokenData0 | tokenData1 | tokenDataH | tokenDataL | tokenDataX | tokenClock0 | tokenClock1 => rfl
  | cycL1 | cycH1 | cycL0 | cycH0 => rfl
  | cycLN k => exact decode_encodeCycle ⟨false, .nonBinary k⟩
  | cycHN k => exact decode_encodeCycle ⟨true, .nonBinary k⟩
  | frameWrite f =>
    have hrnw : f.rnw = false := by simpa [Instr.wellFormed] using hi
    simpa [encodeFrame, hrnw, encode] using decode_encodeFrame f
  | frameRead f =>
    have hrnw : f.rnw = true := hi
    simpa [encodeFrame, hrnw, encode] using decode_encodeFrame f

/-! ## Encoding what the decoder accepts -/

/-- An accepted data-line character is the one its instruction is written as. -/
theorem encode_of_decode_dataToken {ch : Byte} {i : Instr} (h : decode (.dataToken ch) = .ok i) :
    encode i = .dataToken ch ∧ i.wellFormed = true := by
  simp only [decode, decodeDataToken] at h
  split at h <;> cases h <;> exact ⟨congrArg _ (BitVec.eq_of_toNat_eq (Eq.symm ‹_›)), rfl⟩

theorem encode_of_decode_clockToken {ch : Byte} {i : Instr} (h : decode (.clockToken ch) = .ok i) :
    encode i = .clockToken ch ∧ i.wellFormed = true := by
  simp only [decode, decodeClockToken] at h
  split at h <;> cases h <;> exact ⟨congrArg _ (BitVec.eq_of_toNat_eq (Eq.symm ‹_›)), rfl⟩

/-- A data code has one DataValue (R45). -/
theorem encodeDataValue_of_decode {code : BitVec 3} {d : DataValue} (h : decodeDataValue code = some d) :
    encodeDataValue d = code := by
  unfold decodeDataValue at h
  split at h <;> cases h <;> exact BitVec.eq_of_toNat_eq (Eq.symm ‹_›)

theorem wellFormed_classOf (c : Cycle) : (classOf c).wellFormed = true := by
  obtain ⟨clk, d⟩ := c
  cases d with
  | bit b => cases clk <;> cases b <;> rfl
  | nonBinary k => cases clk <;> rfl

/-- A port word is its clock bit and its data code (R47). -/
theorem portWord_eq_append (w : BitVec 4) : BitVec.ofBool (w.getLsbD 3) ++ w.extractLsb' 0 3 = w := by
  revert w
  decide

theorem encode_of_decode_cycle {w : BitVec 4} {i : Instr} (h : decode (.cycle w) = .ok i) :
    encode i = .cycle w ∧ i.wellFormed = true := by
  simp only [decode, decodeCycle] at h
  cases hd : decodeDataValue (w.extractLsb' 0 3) with
  | none => simp [hd] at h
  | some d =>
    obtain rfl : classOf ⟨w.getLsbD 3, d⟩ = i := by simpa [hd] using h
    refine ⟨?_, wellFormed_classOf _⟩
    rw [encode_classOf, encodeCycle, encodeDataValue_of_decode hd, portWord_eq_append]

/-- The plain bits of an extracted Frame are the first nine entries. -/
theorem toBits_plain_of_extract_ok {buf : List DataValue} {f : Frame} (h : extract buf = .ok f) :
    toBits buf 0 9 = .ok (sentPlain f) := by
  obtain ⟨h0, h1, h2, h3, h4, h5, h6, h7, h8⟩ := plain_fields_of_extract_ok h
  refine toBits_ok_iff.2 ⟨rfl, fun j hj => ?_⟩
  interval_cases j <;> assumption

/-- Every index of a completed buffer is a plain bit, an `ack`, or in the layout of a format: `trn2`, `parity2` or the payload (R50
to R52). -/
theorem index_cases (rnw : Bit) {i : Nat} (hi : i < 46) :
    i < 9 ∨ (i = 9 ∨ i = 10 ∨ i = 11) ∨ i = (layout rnw).trn2 ∨ i = (layout rnw).parity2 ∨
      ∃ j < 32, i = (layout rnw).base + j := by
  by_cases hlt : i < (layout rnw).base
  · cases rnw <;> simp only [layout] at hlt ⊢ <;> omega
  · have hpayload : i - (layout rnw).base < 32 ∨ i = (layout rnw).trn2 ∨ i = (layout rnw).parity2 := by
      cases rnw <;> simp only [layout] at hlt ⊢ <;> omega
    obtain hj | h | h := hpayload
    · exact .inr (.inr (.inr (.inr ⟨_, hj, by omega⟩)))
    · exact .inr (.inr (.inl h))
    · exact .inr (.inr (.inr (.inl h)))

/-- No entry of a completed buffer is lost in its Frame. -/
theorem eq_of_extract_ok {a b : List DataValue} {f : Frame} (ha : a.length = 46) (hb : b.length = 46)
    (hfa : extract a = .ok f) (hfb : extract b = .ok f) : a = b := by
  refine List.ext_getElem? fun i => ?_
  by_cases hi : i < 46
  · obtain ⟨ha9, ha10, ha11⟩ := ack_of_extract_ok ha hfa
    obtain ⟨hb9, hb10, hb11⟩ := ack_of_extract_ok hb hfb
    obtain ⟨hatrn2, haparity2, hapayload⟩ := layout_fields_of_extract_ok ha hfa
    obtain ⟨hbtrn2, hbparity2, hbpayload⟩ := layout_fields_of_extract_ok hb hfb
    obtain h9 | (rfl | rfl | rfl) | rfl | rfl | ⟨j, hj, rfl⟩ := index_cases f.rnw hi
    · have hplain {buf} (h : extract buf = .ok f) := bit_of_toBits_ok (toBits_plain_of_extract_ok h) h9
      simpa using (hplain hfa).trans (hplain hfb).symm
    · exact ha9.trans hb9.symm
    · exact ha10.trans hb10.symm
    · exact ha11.trans hb11.symm
    · exact hatrn2.trans hbtrn2.symm
    · exact haparity2.trans hbparity2.symm
    · exact (hapayload j hj).trans (hbpayload j hj).symm
  · rw [List.getElem?_eq_none (by omega), List.getElem?_eq_none (by omega)]

/-- An accepted buffer is the encoding of its Frame: both extract to it. -/
theorem encodeFrame_of_extract_ok {buf : List DataValue} {f : Frame} (hl : buf.length = 46) (h : extract buf = .ok f) :
    encodeFrame f = buf :=
  eq_of_extract_ok (length_encodeFrame f) hl (extract_encodeFrame f) h

/-- A completed buffer is accepted only as the Frame it extracts to, in the format of that Frame's `rnw`. -/
theorem extract_of_decode_frame {buf : List DataValue} {i : Instr} (h : decode (.frame buf) = .ok i) :
    ∃ f, buf.length = 46 ∧ extract buf = .ok f ∧ i = if f.rnw then .frameRead f else .frameWrite f := by
  by_cases hl : buf.length = 46
  · cases hx : extract buf with
    | error k =>
      rw [(decode_frame_error_iff hl k).2 hx] at h
      cases h
    | ok f =>
      rw [decode_frame_of_extract_ok hl hx] at h
      exact ⟨f, hl, rfl, (Except.ok.inj h).symm⟩
  · simp [decode, decodeFrame, frameLen, hl] at h

theorem encode_of_decode_frame {buf : List DataValue} {i : Instr} (h : decode (.frame buf) = .ok i) :
    encode i = .frame buf ∧ i.wellFormed = true := by
  obtain ⟨f, hl, hx, rfl⟩ := extract_of_decode_frame h
  have hword := encodeFrame_of_extract_ok hl hx
  cases hrnw : f.rnw <;> simpa [encodeFrame, hrnw, encode, Instr.wellFormed] using hword

/-- Settles O46: group by group, no two words mean the same. -/
theorem encodeOfDecode : Obligations.EncodeOfDecode := by
  intro e i h
  cases e with
  | dataToken ch => exact encode_of_decode_dataToken h
  | clockToken ch => exact encode_of_decode_clockToken h
  | cycle w => exact encode_of_decode_cycle h
  | frame buf => exact encode_of_decode_frame h

/-! ## What is accepted -/

/-- Settles O31: the length is tested before the entries. -/
theorem partialBufferIsNotDecoded : Obligations.PartialBufferIsNotDecoded :=
  fun _ hl => if_neg hl

theorem decode_dataToken_bad_iff (ch : Byte) :
    decode (.dataToken ch) = .error .badDataToken ↔ ch ∉ [(0x30 : Byte), 0x31, 0x48, 0x4C, 0x58] := by
  simp only [decode, decodeDataToken, List.mem_cons, ← BitVec.toNat_inj]
  split <;> simp_all

theorem decode_clockToken_bad_iff (ch : Byte) :
    decode (.clockToken ch) = .error .badClockToken ↔ ch ∉ [(0x30 : Byte), 0x31] := by
  simp only [decode, decodeClockToken, List.mem_cons, ← BitVec.toNat_inj]
  split <;> simp_all

/-- Settles O43: the characters are those of the two decoders' tables. -/
theorem tokensAccepted : Obligations.TokensAccepted :=
  fun ch => ⟨decode_dataToken_bad_iff ch, decode_clockToken_bad_iff ch⟩

/-- Settles O44: by evaluating the decoder. -/
theorem writtenWordsDecode : Obligations.WrittenWordsDecode :=
  ⟨rfl, rfl, rfl, rfl, rfl, rfl⟩

/-! ## The text forms -/

theorem inTokenSet_iff (ch : Byte) : inTokenSet ch = true ↔ ch ∈ [(0x30 : Byte), 0x31, 0x48, 0x4C, 0x58] := by
  simp [inTokenSet, or_assoc]

/-- A group is a record exactly when its four characters are in the token set (R58). -/
theorem recordOfGroup_eq_some_iff (c0 c1 c2 c3 : Byte) :
    recordOfGroup c0 c1 c2 c3 = some (c1, c0) ↔ ∀ c ∈ [c0, c1, c2, c3], c ∈ [(0x30 : Byte), 0x31, 0x48, 0x4C, 0x58] := by
  simp only [recordOfGroup, List.forall_mem_cons, ← inTokenSet_iff]
  simp [and_assoc]

theorem recordOfGroup_eq_none_or (c0 c1 c2 c3 : Byte) :
    recordOfGroup c0 c1 c2 c3 = some (c1, c0) ∨ recordOfGroup c0 c1 c2 c3 = none :=
  ite_eq_or_eq ..

theorem length_wdataDigits (v : Word) : (wdataDigits v).length = 32 := by
  simp [wdataDigits]

/-- The digits are the numeral of the value: `Rev32` reads them and gives the value back (R60, R111). -/
theorem ofDigits_wdataDigits (v : Word) : ofDigits (wdataDigits v) = v.toNat := by
  have hlt : ofDigits (wdataDigits v) < 2 ^ 32 := by
    simpa [wdataDigits] using ofDigits_reverse_lt ((List.range 32).map v.getLsbD)
  have hval := congrArg BitVec.toNat (rev32_range_getLsbD v)
  rwa [rev32, BitVec.toNat_ofNat, ← wdataDigits, Nat.mod_eq_of_lt hlt] at hval

/-- The digits of what was captured are the captured bits reversed (R60). -/
theorem wdataDigits_rev32 {cap : List Bit} (hl : cap.length = 32) : wdataDigits (rev32 cap) = cap.reverse := by
  refine congrArg List.reverse (List.ext_getElem (by simp [hl]) fun i hi _ => ?_)
  have hi : i < 32 := by simpa using hi
  rw [List.getElem_map, List.getElem_range, rev32_getLsbD cap hi]
  simp [hl, hi]

/-- Settles O51: the digits are those `Rev32` reads, and the group is tested character by character. -/
theorem textFormsOfTheCollaborators : Obligations.TextFormsOfTheCollaborators := by
  refine ⟨fun v => ⟨length_wdataDigits v, ofDigits_wdataDigits v, fun cap => wdataDigits_rev32⟩, fun c0 c1 c2 c3 =>
    ⟨recordOfGroup_eq_some_iff c0 c1 c2 c3, ?_⟩⟩
  rintro ⟨c, hc, hbad⟩
  refine (recordOfGroup_eq_none_or c0 c1 c2 c3).resolve_left fun hsome => hbad ?_
  exact (recordOfGroup_eq_some_iff c0 c1 c2 c3).1 hsome c hc

end Sys2Proof.Machine
end

section
/-! PROOFS. The tokens and records of the Sample Normalizer (40_normalizer.md R61 to R69). -/

namespace Sys2Proof.Machine

/-! ## Tokens -/

/-- A live block takes the Step of every Cycle and keeps its record and its stream. -/
theorem exec_classOf_live_keeps (c : Cycle) {s : State} (hs : s.live) :
    ∃ t, exec (classOf c) s = .next t ∧ t.tokData = s.tokData ∧ t.tokClock = s.tokClock ∧ t.input = s.input :=
  ⟨_, exec_classOf_live c hs, complete_keeps (collected c s)⟩

/-- A data-line token that comes second presents the record's Cycle. -/
theorem dataToken_second (d : DataValue) {s : State} {c : Bit} (hf : s.fault = none) (hc : s.tokClock = some c) :
    dataToken d s = exec (classOf { clock := c, data := d }) { s with tokData := none, tokClock := none } := by
  rw [exec_classOf, dataToken_live d hf]
  simp only [presentRecord, hc]
  exact decoderStep_output _ .none { s with tokData := none, tokClock := none }

/-- A clock-line token that comes second presents the record's Cycle. -/
theorem clockToken_second_eq_exec (c : Bit) {s : State} {d : DataValue} (hf : s.fault = none) (hd : s.tokData = some d) :
    clockToken c s = exec (classOf { clock := c, data := d }) { s with tokData := none, tokClock := none } := by
  rw [exec_classOf, clockToken_second c hf hd]
  exact decoderStep_output _ .none { s with tokData := none, tokClock := none }

theorem clockToken_first (c : Bit) {s : State} (hf : s.fault = none) (hd : s.tokData = none) :
    clockToken c s = .next { s with output := .none, tokClock := some c } := by
  simp [clockToken_live c hf, presentRecord, hd]

/-- Settles O23: each of the five instructions is the data-line token of its value. -/
theorem dataTokenEffects : Obligations.DataTokenEffects := by
  intro i d s hs hmem
  have hexec : exec i s = dataToken d s := by
    simp only [List.mem_cons, List.not_mem_nil, or_false, Prod.mk.injEq] at hmem
    obtain ⟨rfl, rfl⟩ | ⟨rfl, rfl⟩ | ⟨rfl, rfl⟩ | ⟨rfl, rfl⟩ | ⟨rfl, rfl⟩ := hmem <;> rfl
  rw [hexec]
  refine ⟨fun hc => dataToken_first d hs.1 hc, fun c hc => ?_⟩
  obtain ⟨t, ht, -⟩ := exec_classOf_live_keeps ⟨c, d⟩ (s := { s with tokData := none, tokClock := none }) hs
  exact ⟨t, (dataToken_second d hs.1 hc).trans ht, ht⟩

/-- Settles O24: each of the two instructions is the clock-line token of its level. -/
theorem clockTokenEffects : Obligations.ClockTokenEffects := by
  intro i c s hs hmem
  have hexec : exec i s = clockToken c s := by
    simp only [List.mem_cons, List.not_mem_nil, or_false, Prod.mk.injEq] at hmem
    obtain ⟨rfl, rfl⟩ | ⟨rfl, rfl⟩ := hmem <;> rfl
  rw [hexec]
  refine ⟨fun d hd => ?_, fun hd => clockToken_first c hs.1 hd⟩
  obtain ⟨t, ht, htd, htc, -⟩ := exec_classOf_live_keeps ⟨c, d⟩ (s := { s with tokData := none, tokClock := none }) hs
  exact ⟨t, (clockToken_second_eq_exec c hs.1 hd).trans ht, htd, htc, ht⟩

/-! ## Records -/

theorem runRecord_of_normalize_ok {a b : Byte} {c : Cycle} {s : State} (hf : s.fault = none) (hd : s.tokData = none)
    (hc : s.tokClock = none) (h : normalizeRecord a b = .ok c) : runRecord a b s = exec (classOf c) s := by
  simpa [hf, h, exec_classOf] using runRecord_cases a b hd hc

theorem runRecord_of_normalize_error {a b : Byte} {w : TokenLine} {s : State} (hf : s.fault = none) (hd : s.tokData = none)
    (hc : s.tokClock = none) (h : normalizeRecord a b = .error w) : runRecord a b s = .next (raise (.badToken w) s) := by
  simpa [hf, h] using runRecord_cases a b hd hc

/-- Settles O25: the record runs with no half record before it, as `Normalize` and the Step of its Cycle, or as the fault. -/
theorem recordIsNormalizeThenStep : Obligations.RecordIsNormalizeThenStep := by
  intro s dtok ctok rest hs hin
  have hlive : ({ s with input := rest, tokData := none, tokClock := none } : State).live := hs
  rw [step_of_record (frameDue_of_live hs) hin]
  refine ⟨fun c hc => ?_, fun w hw => ⟨_, runRecord_of_normalize_error hlive.1 rfl rfl hw, rfl, rfl, rfl, rfl, rfl⟩⟩
  obtain ⟨u, hu, hud, huc, hui⟩ := exec_classOf_live_keeps c hlive
  exact ⟨u, (runRecord_of_normalize_ok hlive.1 rfl rfl hc).trans hu, hud, huc, hui, hu⟩

/-! ## Records given one token at a time -/

/-- The step of a good data-line token of a live block with no record begun. -/
theorem step_of_good_data_token {s : State} {ch : Byte} {i : Instr} {d : DataValue} {rest : List PortSample} (hs : s.live)
    (hd : s.tokData = none) (hc : s.tokClock = none) (hin : s.input = { rst := false, present := .token ch } :: rest)
    (hi : decode (.dataToken ch) = .ok i) (hexec : ∀ s, exec i s = dataToken d s) :
    step s = .next { s with input := rest, output := .none, tokData := some d } := by
  rw [step_of_first_token (frameDue_of_live hs) hd hin, runWord_of_decode_ok hi, hexec,
    dataToken_first d (s := { s with input := rest }) hs.1 hc]

/-- The step of a good clock-line token after the data half presents the record's Cycle. -/
theorem step_of_good_clock_token {s : State} {ch : Byte} {j : Instr} {d : DataValue} {c : Bit} {rest : List PortSample}
    (hs : s.live) (hd : s.tokData = some d) (hin : s.input = { rst := false, present := .token ch } :: rest)
    (hj : decode (.clockToken ch) = .ok j) (hexec : ∀ s, exec j s = clockToken c s) :
    step s = exec (classOf { clock := c, data := d }) { s with input := rest, tokData := none, tokClock := none } := by
  rw [step_of_second_token (frameDue_of_live hs) (by simp [hd]) hin, runWord_of_decode_ok hj, hexec,
    clockToken_second_eq_exec c (s := { s with input := rest }) hs.1 hd]

/-- A Cycle does not read the Output, and an empty record is the record of a block with none begun. -/
theorem exec_classOf_of_no_record (c : Cycle) {s : State} (hd : s.tokData = none) (hc : s.tokClock = none) :
    exec (classOf c) { s with output := .none, tokData := none, tokClock := none } = exec (classOf c) s := by
  rw [exec_classOf, exec_classOf, ← hd, ← hc, decoderStep_output]

/-- Settles O26: the first token faults, or gives the data half; the second then faults, or presents the record's Cycle. -/
theorem tokensOneByOneMakeTheRecord : Obligations.TokensOneByOneMakeTheRecord := by
  intro s dtok ctok rest hs hd hc hin
  obtain ⟨hbad, hn⟩ | ⟨i, d, hi, hexec, hclock⟩ := record_words dtok ctok
  · rw [hn]
    obtain ⟨t, ht, hfault, hout, htd, -, hti⟩ := (badTokenRaises s dtok _ hs hin).1 hd hbad
    have hu : step t = .next ({ t with input := rest } : State).quiet := by
      rw [step_of_first_token (frameDue_of_faulted hfault) htd hti]
      exact runWord_dataToken_faulted ctok (s := { t with input := rest }) hfault
    exact ⟨nofun, fun _ => ⟨t, _, ht, hfault, hout, hu, hfault, rfl, rfl⟩, nofun⟩
  have ht := step_of_good_data_token hs hd hc hin hi hexec
  have hlive : ({ s with
      input := { rst := false, present := .token ctok } :: rest, output := .none, tokData := some d } : State).live := hs
  obtain ⟨hbad, hn⟩ | ⟨j, c, hj, hexecj, hn⟩ := hclock
  · rw [hn]
    obtain ⟨u, hu, hfault, hout, hud, -, hui⟩ := (badTokenRaises _ ctok rest hlive rfl).2 (by simp) hbad
    exact ⟨nofun, nofun, fun _ => ⟨_, u, ht, rfl, hu, hfault, hout, hud, hui⟩⟩
  · rw [hn]
    refine ⟨fun c' hc' => ?_, nofun, nofun⟩
    obtain rfl := Except.ok.inj hc'
    obtain ⟨u, hu, -⟩ := exec_classOf_live_keeps ⟨c, d⟩ (s := { s with input := rest }) hs
    refine ⟨_, u, ht, rfl, ?_, hu⟩
    rw [← hu, ← exec_classOf_of_no_record ⟨c, d⟩ (s := { s with input := rest }) hd hc]
    exact step_of_good_clock_token hlive rfl rfl hj hexecj

end Sys2Proof.Machine
end

section
/-! PROOFS. Single Steps: the append at index 46 (R34), who writes `executing` (R18), what the NonBinary kind does not enter (R70), and the
frame instructions (R76, R109, R110). -/

namespace Sys2Proof.Machine

/-! ## A Step of a block with any buffer -/

@[simp] theorem arm_executing (c : Cycle) (s : State) : (arm c s).executing = armedBy c s := by
  unfold arm
  split
  · rename_i h
    simp [armedBy, h]
  · rename_i h
    cases he : s.executing <;> simp_all

@[simp] theorem arm_buf (c : Cycle) (s : State) : (arm c s).buf = s.buf := by
  unfold arm
  split <;> rfl

@[simp] theorem arm_run (c : Cycle) (s : State) : (arm c s).run = s.run := by
  unfold arm
  split <;> rfl

@[simp] theorem arm_fault (c : Cycle) (s : State) : (arm c s).fault = s.fault := by
  unfold arm
  split <;> rfl

@[simp] theorem countOnes_executing (c : Cycle) (s : State) : (countOnes c s).executing = s.executing := by
  unfold countOnes
  split <;> rfl

@[simp] theorem countOnes_buf (c : Cycle) (s : State) : (countOnes c s).buf = s.buf := by
  unfold countOnes
  split <;> rfl

@[simp] theorem countOnes_run (c : Cycle) (s : State) :
    (countOnes c s).run = if c.data = .bit true then s.run + 1 else 0 := by
  unfold countOnes
  split <;> rfl

@[simp] theorem countOnes_fault (c : Cycle) (s : State) : (countOnes c s).fault = s.fault := by
  unfold countOnes
  split <;> rfl

@[simp] theorem lineReset_executing (s : State) : (lineReset s).executing = s.executing := by
  unfold lineReset
  split <;> rfl

@[simp] theorem lineReset_fault (s : State) : (lineReset s).fault = s.fault := by
  unfold lineReset
  split <;> rfl

theorem lineReset_of_ne {s : State} (h : s.run ≠ resetRun) : lineReset s = s :=
  if_neg h

/-- Accumulation writes the buffer only (R75). -/
theorem accumulate_keeps {c : Cycle} {s u : State} (h : accumulate c s = some u) :
    u.executing = s.executing ∧ u.fault = s.fault := by
  unfold accumulate at h
  split at h
  · cases hb : Memory.append s.buf c.data with
    | none => simp [hb] at h
    | some b =>
      obtain rfl : { s with buf := b } = u := by simpa [hb] using h
      exact ⟨rfl, rfl⟩
  · cases h
    exact ⟨rfl, rfl⟩

theorem accumulate_past_end {c : Cycle} {s : State} (hc : c.clock = false) (he : s.executing = true) (hb : 46 ≤ s.buf.length) :
    accumulate c s = none := by
  have hnone : Memory.append s.buf c.data = none := if_neg (by omega)
  simp [accumulate, hc, he, hnone]

/-- A Step that goes on is sub-step 4 on a state that sub-step 1 armed or left as it was, whatever the buffer. -/
theorem decoderStep_next {c : Cycle} {s t : State} (hf : s.fault = none) (h : decoderStep c s = .next t) :
    ∃ u, t = complete u ∧ u.executing = armedBy c s ∧ u.fault = none := by
  unfold decoderStep at h
  rw [hf] at h
  cases ha : accumulate c (lineReset (countOnes c (arm c s.quiet))) with
  | none => simp [ha] at h
  | some u =>
    obtain rfl : complete u = t := by simpa [ha] using h
    obtain ⟨he, hfault⟩ := accumulate_keeps ha
    exact ⟨u, rfl, by simpa [armedBy] using he, by simpa [hf] using hfault⟩

/-- Settles O11: there is no index to append at, unless the line reset, which this Cycle does not reach, clears the buffer first. -/
theorem appendPastBufferStops : Obligations.AppendPastBufferStops := by
  intro s d hf hb he h50
  have hrun : (countOnes ⟨false, d⟩ (arm ⟨false, d⟩ s.quiet)).run ≠ resetRun := by
    simp only [countOnes_run, arm_run, State.quiet_run, resetRun]
    split
    · have := h50 ‹_›
      omega
    · decide
  rw [exec_classOf, decoderStep, hf]
  simp only [lineReset_of_ne hrun]
  rw [accumulate_past_end rfl (by simp [armedBy, he]) (by simpa using hb)]

/-! ## Who writes `executing` (R18) -/

/-- From `s` to `t`, `executing` is set only where `arms` holds, and cleared only with a Frame on the Output. -/
def ExecutingWritten (arms : Prop) (s t : State) : Prop :=
  (s.executing = false → t.executing = true → arms) ∧
    (s.executing = true → t.executing = false → ∃ f, t.output = .event (.frame f))

theorem ExecutingWritten.imp {p q : Prop} {s t : State} (h : ExecutingWritten p s t) (hpq : p → q) : ExecutingWritten q s t :=
  ⟨fun hs ht => hpq (h.1 hs ht), h.2⟩

theorem executingWritten_of_eq {p : Prop} {s t : State} (h : t.executing = s.executing) : ExecutingWritten p s t := by
  constructor
  · intro hs ht
    simp [h, hs] at ht
  · intro hs ht
    simp [h, hs] at ht

theorem executingWritten_of_decoderStep {c : Cycle} {s t : State} (hf : s.fault = none) (ht : t.fault = none)
    (h : decoderStep c s = .next t) : ExecutingWritten (c = { clock := false, data := .bit true }) s t := by
  obtain ⟨u, rfl, he, -⟩ := decoderStep_next hf h
  obtain ⟨-, hu⟩ | ⟨f, -, -, hu⟩ | ⟨i, -, -, hu⟩ := complete_cases u
  · rw [hu]
    refine ⟨fun hs hset => ?_, fun hs hclear => ?_⟩
    · obtain ⟨hclk, hd⟩ : c.clock = false ∧ c.data = .bit true := by simpa [he, armedBy, hs] using hset
      rw [← hclk, ← hd]
    · simp [he, armedBy, hs] at hclear
  · rw [hu]
    exact ⟨fun _ hset => by simp at hset, fun _ _ => ⟨f, rfl⟩⟩
  · simp [hu] at ht

theorem executingWritten_of_dataToken {d : DataValue} {s t : State} (hf : s.fault = none) (ht : t.fault = none)
    (h : dataToken d s = .next t) : ExecutingWritten (d = .bit true ∧ s.tokClock = some false) s t := by
  cases hc : s.tokClock with
  | none =>
    cases (dataToken_first d hf hc).symm.trans h
    exact executingWritten_of_eq rfl
  | some c =>
    rw [dataToken_second d hf hc, exec_classOf] at h
    have hw := executingWritten_of_decoderStep (s := { s with tokData := none, tokClock := none }) hf ht h
    exact ExecutingWritten.imp hw fun harms => by simpa [and_comm] using harms

theorem executingWritten_of_clockToken {c : Bit} {s t : State} (hf : s.fault = none) (ht : t.fault = none)
    (h : clockToken c s = .next t) : ExecutingWritten (c = false ∧ s.tokData = some (.bit true)) s t := by
  cases hd : s.tokData with
  | none =>
    cases (clockToken_first c hf hd).symm.trans h
    exact executingWritten_of_eq rfl
  | some d =>
    rw [clockToken_second_eq_exec c hf hd, exec_classOf] at h
    have hw := executingWritten_of_decoderStep (s := { s with tokData := none, tokClock := none }) hf ht h
    exact ExecutingWritten.imp hw fun harms => by simpa using harms

theorem executingWritten_of_decodedFrame {p : Prop} {f : Frame} {s t : State} (hf : s.fault = none)
    (h : decodedFrame f s = .next t) : ExecutingWritten p s t := by
  cases (decodedFrame_live f hf).symm.trans h
  exact ⟨fun _ hset => by simp at hset, fun _ _ => ⟨f, rfl⟩⟩

/-- Settles O21: a Cycle arms only as `CYC_L1`, a token only where it completes the record of that Cycle, a frame instruction never. -/
theorem executingHasTwoWriters : Obligations.ExecutingHasTwoWriters := by
  intro i s t hf ht h
  change ExecutingWritten _ s t
  cases i with
  | tokenData1 => exact (executingWritten_of_dataToken hf ht h).imp fun harms => .inr (.inr ⟨rfl, harms.2⟩)
  | tokenData0 | tokenDataH | tokenDataL | tokenDataX =>
    exact (executingWritten_of_dataToken hf ht h).imp fun harms => nomatch harms.1
  | tokenClock0 => exact (executingWritten_of_clockToken hf ht h).imp fun harms => .inr (.inl ⟨rfl, harms.2⟩)
  | tokenClock1 => exact (executingWritten_of_clockToken hf ht h).imp fun harms => nomatch harms.1
  | cycL1 => exact (executingWritten_of_decoderStep hf ht h).imp fun _ => .inl rfl
  | cycL0 | cycLN => exact (executingWritten_of_decoderStep (c := ⟨false, _⟩) hf ht h).imp nofun
  | cycH1 | cycH0 | cycHN => exact (executingWritten_of_decoderStep (c := ⟨true, _⟩) hf ht h).imp nofun
  | frameWrite f | frameRead f => exact executingWritten_of_decodedFrame hf h

/-! ## The NonBinary kind (R70) -/

/-- The decoder's elements are alike but for the NonBinary kinds of the entries. -/
structure Alike (s s' : State) : Prop where
  fault : s.fault = s'.fault
  executing : s.executing = s'.executing
  run : s.run = s'.run
  buf : s.buf.map blind = s'.buf.map blind

theorem data_one_iff_of_blind {d d' : DataValue} (h : blind d = blind d') : d = .bit true ↔ d' = .bit true := by
  cases d <;> cases d' <;> simp_all [blind]

/-- Sub-steps 1 to 3 read of the data only whether it is a one. -/
theorem collected_alike {c c' : Cycle} {s s' : State} (hs : Alike s s') (hclk : c.clock = c'.clock)
    (hd : blind c.data = blind c'.data) :
    Alike (collected c s) (collected c' s') ∧ (collected c s).output = (collected c' s').output := by
  have hone := data_one_iff_of_blind hd
  have harm : armedBy c s = armedBy c' s' := by simp only [armedBy, hs.executing, hclk, hone]
  have h50 : hitsFifty c s ↔ hitsFifty c' s' := by simp only [hitsFifty, hone, hs.run]
  refine ⟨⟨hs.fault, harm, ?_, ?_⟩, ?_⟩
  · simp only [collected, hone, hs.run]
  · simp only [collected, harm, hclk, h50, List.map_append]
    congr 1
    · split <;> simp [hs.buf]
    · split <;> simp [hd]
  · simp only [collected, h50]

/-- Extraction fails on both of two buffers that differ in kinds, at the same index, or on neither. -/
theorem extract_error_iff_of_alike {a b : List DataValue} (h : a.map blind = b.map blind) (i : Nat) :
    extract a = .error i ↔ extract b = .error i := by
  simp only [extract_error_iff, toBits_congr (toBit_of_alike blind (fun _ => rfl) (fun _ => rfl) h)]

/-- What two Steps that agree on all but kinds have in common. -/
def SameButKinds (t t' : State) : Prop :=
  t.fault = t'.fault ∧ t.output.isReset = t'.output.isReset ∧ t.output.isFrame = t'.output.isFrame ∧
    (t.fault = none → t.executing = t'.executing ∧ t.run = t'.run ∧ t.buf.map blind = t'.buf.map blind)

theorem complete_alike {s s' : State} (h : Alike s s') (hout : s.output = s'.output) :
    SameButKinds (complete s) (complete s') := by
  have hlen : s.buf.length = s'.buf.length := by simpa using congrArg List.length h.buf
  by_cases hl : s.buf.length = 46
  · have hl' := hlen.symm.trans hl
    cases hx : extract s.buf with
    | error i =>
      rw [complete_of_extract_error hl hx, complete_of_extract_error hl' ((extract_error_iff_of_alike h.buf i).1 hx)]
      exact ⟨rfl, rfl, rfl, nofun⟩
    | ok f =>
      cases hx' : extract s'.buf with
      | error i => simp [(extract_error_iff_of_alike h.buf i).2 hx'] at hx
      | ok f' =>
        rw [complete_of_extract_ok hl hx, complete_of_extract_ok hl' hx']
        exact ⟨h.fault, rfl, rfl, fun _ => ⟨rfl, h.run, rfl⟩⟩
  · have hshort {u : State} (hu : u.buf.length ≠ 46) : complete u = u := if_neg hu
    rw [hshort hl, hshort (hlen ▸ hl)]
    exact ⟨h.fault, by rw [hout], by rw [hout], fun _ => ⟨h.executing, h.run, h.buf⟩⟩

/-- Settles O22: sub-steps 1 to 3 keep the two blocks alike, and sub-step 4 converts the same entries. -/
theorem nonBinaryKindIsNeverTested : Obligations.NonBinaryKindIsNeverTested := by
  intro c c' s s' t t' hs hs' hclk hd he hr hb h h'
  obtain rfl : complete (collected c s) = t := by simpa [exec_classOf_live c hs] using h
  obtain rfl : complete (collected c' s') = t' := by simpa [exec_classOf_live c' hs'] using h'
  obtain ⟨halike, hout⟩ := collected_alike ⟨hs.1.trans hs'.1.symm, he, hr, hb⟩ hclk hd
  exact complete_alike halike hout

/-! ## The frame instructions -/

/-- Settles O27: both formats complete the decoded Frame. -/
theorem frameInstructionEffects : Obligations.FrameInstructionEffects :=
  fun f _ hf => ⟨decodedFrame_live f hf, decodedFrame_live f hf⟩

/-- Settles O28: both end in `emitFrame` of the Frame the buffer extracts to, which writes what else the two states differ in. -/
theorem fortySixthEntryRunsTheFrame : Obligations.FortySixthEntryRunsTheFrame := by
  intro d i s hs he hlen h50 hi
  obtain ⟨f, hl, hx, rfl⟩ := extract_of_decode_frame hi
  have hbuf := collected_buf_of_armed he h50
  refine ⟨emitFrame f (collected ⟨false, d⟩ s), ?_, ?_⟩
  · rw [exec_classOf_live _ hs, complete_of_extract_ok (by rw [hbuf, hl]) (by rw [hbuf, hx])]
  · have hrun : (collected ⟨false, d⟩ s).run = if d = .bit true then s.run + 1 else 0 := by
      by_cases hd : d = .bit true
      · have hr : s.run ≠ 49 := fun hr => h50 ⟨hd, hr⟩
        simp [collected, hd, hr]
      · simp [collected, hd]
    have hexec (u : State) (hu : u.fault = none) :
        exec (if f.rnw then .frameRead f else .frameWrite f) u = .next (emitFrame f u) := by
      split <;> exact decodedFrame_live f hu
    rw [← hrun]
    exact hexec _ hs.1

end Sys2Proof.Machine
end

section
/-! PROOFS. The faults that arise in a step (60_exceptions.md R115, R116, R120). -/

namespace Sys2Proof.Machine

/-! ## The fault of a Step -/

/-- Sub-steps 1 to 3 fill the buffer only by appending to 45 entries of an Armed block. -/
theorem collected_full {c : Cycle} {s : State} (hs : s.Inv) (hf : s.fault = none) (hl : (collected c s).buf.length = 46) :
    s.executing = true ∧ s.buf.length = 45 ∧ (collected c s).buf = s.buf ++ [c.data] := by
  have h50 : ¬hitsFifty c s := fun h => by
    have := collected_len_of_fifty h
    omega
  have hle := hs.buf_le hf
  have hbuf : (collected c s).buf = s.buf ++ (if !c.clock && armedBy c s then [c.data] else []) := by
    simp only [collected, if_neg h50]
  by_cases hentry : (!c.clock && armedBy c s) = true
  · rw [if_pos hentry] at hbuf
    have hlen : s.buf.length = 45 := by simpa [hbuf] using hl
    have harmed : s.executing = true := by
      by_contra he
      simp [hs.idle_empty hf (by simpa using he)] at hlen
    exact ⟨harmed, hlen, hbuf⟩
  · rw [hbuf, if_neg hentry, List.append_nil] at hl
    omega

/-- A Step raises a fault only at the 46th entry, with the index R120 names. -/
theorem decoderStep_fault {c : Cycle} {s t : State} {x : FaultCause} (hs : s.Inv) (hf : s.fault = none)
    (h : decoderStep c s = .next t) (hx : t.fault = some x) :
    t.output = .fault x ∧ ∃ i, x = .unconvertible i ∧ s.executing = true ∧ s.buf.length = 45 ∧
      reportedIndex (s.buf ++ [c.data]) i := by
  obtain rfl : complete (collected c s) = t := by simpa [decoderStep_live c (live_of_inv hs hf)] using h
  have hcf : (collected c s).fault = none := hf
  obtain ⟨-, ht⟩ | ⟨f, -, -, ht⟩ | ⟨i, hl, he, ht⟩ := complete_cases (collected c s)
  · simp [ht, hcf] at hx
  · simp [ht, hcf] at hx
  · obtain rfl : .unconvertible i = x := by simpa [ht] using hx
    obtain ⟨harmed, hlen, hbuf⟩ := collected_full hs hf hl
    rw [hbuf] at hl he
    exact ⟨by simp [ht], i, rfl, harmed, hlen,
      (decode_frame_error_iff_reportedIndex hl i).1 ((decode_frame_error_iff hl i).2 he)⟩

/-! ## Where a step's fault comes from -/

/-- Where a fault can come from in the step from `s` to `t`: a bad token, or the Step of a Cycle on the decoder's elements as they are. -/
def FaultSource (s t : State) : Prop :=
  (∃ w, t.fault = some (.badToken w) ∧ t.output = .fault (.badToken w)) ∨
    ∃ c u, u.Inv ∧ u.fault = none ∧ u.executing = s.executing ∧ u.buf = s.buf ∧ decoderStep c u = .next t

/-- A character on the data line of a block without a fault: a bad token, or the record's data half. -/
theorem faultSource_of_dataToken {ch : Byte} {s t : State} (hs : s.Inv) (hf : s.fault = none)
    (h : runWord (.dataToken ch) s = .next t) : t.fault = none ∨ FaultSource s t := by
  obtain hr | ⟨d, hr⟩ := runWord_dataToken_cases ch s
  · rw [hr, badToken_of_no_fault _ hf] at h
    cases h
    exact .inr (.inl ⟨.data, rfl, rfl⟩)
  · rw [hr, dataToken_first d hf hs.no_clock_half] at h
    cases h
    exact .inl hf

/-- A character on the clock line, after the data half: a bad token, or the Step of the record's Cycle. -/
theorem faultSource_of_clockToken {ch : Byte} {s t : State} (hs : s.Inv) (hf : s.fault = none) (hd : s.tokData ≠ none)
    (h : runWord (.clockToken ch) s = .next t) : FaultSource s t := by
  obtain ⟨d, hd⟩ := Option.ne_none_iff_exists'.1 hd
  obtain hr | ⟨c, hr⟩ := runWord_clockToken_cases ch s
  · rw [hr, badToken_of_no_fault _ hf] at h
    cases h
    exact .inl ⟨.clock, rfl, rfl⟩
  · rw [hr, clockToken_second c hf hd] at h
    exact .inr ⟨_, _, inv_of_no_record hs .none, hf, rfl, rfl, h⟩

theorem faultSource_of_cycle {w : BitVec 4} {s t : State} (hs : s.Inv) (hf : s.fault = none)
    (h : runWord (.cycle w) s = .next t) : FaultSource s t := by
  obtain ⟨c, hr⟩ | ⟨hr, -⟩ := runWord_cycle_cases w s
  · exact .inr ⟨c, s, hs, hf, rfl, rfl, hr.symm.trans h⟩
  · cases hr.symm.trans h

theorem faultSource_of_record {a b : Byte} {s t : State} (hs : s.Inv) (hf : s.fault = none) (hd : s.tokData = none)
    (h : runRecord a b s = .next t) : FaultSource s t := by
  obtain ⟨x, hx, -⟩ | ⟨-, c, -, hr⟩ | ⟨-, w, -, hr⟩ := runRecord_cases a b hd hs.no_clock_half
  · cases hf.symm.trans hx
  · exact .inr ⟨c, s, hs, hf, rfl, rfl, hr.symm.trans h⟩
  · cases hr.symm.trans h
    exact .inl ⟨w, rfl, rfl⟩

/-- A step of a block without a fault, by what is presented. -/
theorem faultSource_of_step {s t : State} (hs : s.Inv) (hf : s.fault = none) (h : step s = .next t) :
    t.fault = none ∨ FaultSource s t := by
  have hrest := withInput_inv hs
  obtain hr | ⟨rest, hr⟩ | ⟨rest, hr⟩ | ⟨w, rest, -, hr⟩ | ⟨ch, rest, -, hr⟩ | ⟨ch, rest, htok, hr⟩ | ⟨a, b, rest, hr⟩ :=
    step_words (due_false_of_inv hs)
  · cases hr.symm.trans h
    exact .inl hf
  · cases hr.symm.trans h
    exact .inl rfl
  · cases hr.symm.trans h
    exact .inl hf
  · have hsource := faultSource_of_cycle (hrest rest) hf (hr.symm.trans h)
    exact .inr hsource
  · have hsource := faultSource_of_dataToken (hrest rest) hf (hr.symm.trans h)
    exact hsource
  · have hsource := faultSource_of_clockToken (hrest rest) hf htok (hr.symm.trans h)
    exact .inr hsource
  · have hsource := faultSource_of_record (inv_of_no_record (hrest rest) _) hf rfl (hr.symm.trans h)
    exact .inr hsource

/-- Index 12 is of the payload only in a read, index 44 only in a write (R51, R52). -/
theorem rnw_of_reportedIndex {buf : List DataValue} {i : Nat} (h : reportedIndex buf i) :
    (i = 12 → buf[2]? = some (.bit true)) ∧ (i = 44 → buf[2]? = some (.bit false)) := by
  obtain ⟨-, ⟨hle, -⟩ | ⟨hlt, -, rnw, hrnw, hm, -⟩⟩ := h
  · constructor <;> omega
  · have hpayload := ((mustBeBit_iff_layout rnw i).1 hm).resolve_left (by omega)
    rw [hrnw]
    cases rnw <;> simp [layout] at hpayload ⊢ <;> omega

/-- Settles O9: a bad token is a listed cause, and the Step of a Cycle fails only at the 46th entry. -/
theorem faultsThatArise : Obligations.FaultsThatArise := by
  intro s t x hs hf h hx
  have hlisted : x.listed := (everyStepKeepsInvariant s t hs h).cause_listed x hx
  obtain hnone | ⟨w, hw, hout⟩ | ⟨c, u, hu, huf, he, hb, hstep⟩ := faultSource_of_step hs hf h
  · cases hnone.symm.trans hx
  · obtain rfl : .badToken w = x := by simpa [hx] using hw.symm
    exact ⟨hlisted, hout, nofun⟩
  · obtain ⟨hout, i, rfl, harmed, hlen, hindex⟩ := decoderStep_fault hu huf hstep hx
    rw [he] at harmed
    rw [hb] at hlen hindex
    have hrnw := rnw_of_reportedIndex hindex
    rw [List.getElem?_append_left (by omega)] at hrnw
    refine ⟨hlisted, hout, fun j hj => ?_⟩
    cases hj
    exact ⟨c.data, harmed, hlen, hindex, hrnw⟩

end Sys2Proof.Machine
end

section
/-! PROOFS. The output ports (30_encoding.md R57). -/

namespace Sys2Proof.Machine

/-! ## The fault ports -/

/-- The kind of a cause stands above its 6-bit index (R57). -/
theorem code_unconvertible_toNat {i : Nat} (hi : i < 64) : (FaultCause.code (.unconvertible i)).toNat = 128 + i := by
  have hindex : (BitVec.ofNat 6 i).toNat = i := by simpa using hi
  rw [FaultCause.code, BitVec.toNat_append, hindex, ← Nat.shiftLeft_add_eq_or_of_lt hi]
  rfl

/-- Settles O10: by the codes, and by whether there is a fault. -/
theorem faultCauseCodes : Obligations.FaultCauseCodes := by
  refine ⟨rfl, rfl, fun i hi => code_unconvertible_toNat (by omega), fun s => ⟨?_, fun hf => ?_, fun c hf => ?_⟩⟩
  · exact Option.isSome_iff_ne_none
  · simp [State.faultCausePort, hf]
  · simp [State.faultCausePort, hf]

/-! ## The Event ports -/

theorem State.evValid_iff (s : State) : s.evValid = true ↔ ∃ e, s.output = .event e := by
  unfold State.evValid
  rcases s.output with _ | e | c <;> simp

theorem State.evKind_eq_some_false_iff (s : State) : s.evKind = some false ↔ s.output = .event .resetEvent := by
  unfold State.evKind
  rcases s.output with _ | (_ | f) | c <;> simp

theorem State.evKind_eq_some_true_iff (s : State) : s.evKind = some true ↔ ∃ f, s.output = .event (.frame f) := by
  unfold State.evKind
  rcases s.output with _ | (_ | f) | c <;> simp

theorem State.evKind_eq_none_iff (s : State) : s.evKind = none ↔ ¬∃ e, s.output = .event e := by
  unfold State.evKind
  rcases s.output with _ | (_ | f) | c <;> simp

theorem State.framePorts_eq_some_iff (s : State) (f : Frame) : s.framePorts = some f ↔ s.output = .event (.frame f) := by
  unfold State.framePorts
  rcases s.output with _ | (_ | g) | c <;> simp

theorem State.framePorts_eq_none {s : State} (h : ¬∃ f, s.output = .event (.frame f)) : s.framePorts = none :=
  Option.eq_none_iff_forall_ne_some.2 fun f hf => h ⟨f, (s.framePorts_eq_some_iff f).1 hf⟩

/-- The three slices of nine bits are what they were put together from. -/
theorem extractLsb'_append_three (a b c : BitVec 3) :
    (a ++ b ++ c).extractLsb' 0 3 = c ∧ (a ++ b ++ c).extractLsb' 3 3 = b ∧ (a ++ b ++ c).extractLsb' 6 3 = a := by
  refine ⟨BitVec.extractLsb'_append_eq_right, ?_, ?_⟩
  · rw [BitVec.extractLsb'_append_eq_of_le (by decide)]
    exact BitVec.extractLsb'_append_eq_right
  · rw [BitVec.extractLsb'_append_eq_of_le (by decide)]
    exact BitVec.extractLsb'_append_eq_left

/-- Settles O50: the Event ports tell the Outputs apart, and the `f_*` ports are those of the Frame there. -/
theorem eventPorts : Obligations.EventPorts := by
  refine fun s => ⟨s.evValid_iff, s.evKind_eq_some_false_iff, s.evKind_eq_some_true_iff, s.evKind_eq_none_iff,
    s.framePorts_eq_some_iff, fun f hf => ?_, fun hnone => ?_⟩
  · have hports := (s.framePorts_eq_some_iff f).2 hf
    refine ⟨?_, ?_, ?_, _, ?_, extractLsb'_append_three _ _ _⟩
    · simp [State.wdataPort, hports]
    · simp [State.trn2Port, hports]
    · simp [State.parity2Port, hports]
    · simp [State.ackPort, hports]
  · have hports := State.framePorts_eq_none hnone
    simp [State.ackPort, State.trn2Port, State.wdataPort, State.parity2Port, hports]

end Sys2Proof.Machine
end
